-- ==== Sys2Proof/Word.lean ====
section
/-! DEFINITION. The word type: the byte, which is every datum of the block (R58). Operand fields are used as natural numbers
(R85) of IDX_WIDTH bits. -/

namespace Sys2Proof

/-- A byte, an unsigned 8-bit value (R8). -/
abbrev Byte := BitVec 8

end Sys2Proof
end

