-- ==== Sys2Proof/Config.lean ====
section
/-! DEFINITION. The implementation parameters of R5, the values of this hardware, and the free values: the draws the
spec leaves open, as constants with no body. -/

namespace Sys2Proof.Config

/-- The parameters of R5. "A model takes each one as an argument and fixes it to the value shown unless a claim names
another." T_BYTE is read by the timing figures only (R245). -/
structure Params where
  /-- SYM1, the symbol byte of a 1 bit (R140). -/
  sym1 : Byte
  /-- SYM0, the symbol byte of a 0 bit (R140). -/
  sym0 : Byte
  /-- RESET_BYTES, the length of the reset period (R151). -/
  resetBytes : Nat
  /-- RESET_BYTE, the byte of the reset period (R151). -/
  resetByte : Byte
  /-- SYMBOLS_PER_BYTE, symbol bytes per channel byte (R144, log 22): where a rule writes 8. -/
  symbolsPerByte : Nat
  /-- CHANNELS, channel bytes per pixel (R50, log 22): where a rule writes 3, and 24 = 3 x 8. -/
  channels : Nat
  /-- IDX_WIDTH, the width in bits of the LED count, index and list count fields (R7, R22, R85, log 22). -/
  idxWidth : Nat
  /-- SETPIXEL_CLEARS_ALL (R113). -/
  setPixelClearsAll : Bool
  /-- T_BYTE in picoseconds, timing information only (R245). -/
  tBytePs : Nat
  deriving DecidableEq, Repr

/-- The parameter values of this hardware (R5, log 12, log 13). -/
def hw : Params where
  sym1 := 0xF0#8
  sym0 := 0xC0#8
  resetBytes := 240
  resetByte := 0x00#8
  symbolsPerByte := 8
  channels := 3
  idxWidth := 16
  setPixelClearsAll := false
  tBytePs := 1250000

/-- R143: an admitted pair of symbol values is a pair of different values. -/
abbrev Params.Admissible (P : Params) : Prop := P.sym1 ≠ P.sym0

/-- Free value (R30, U6, log 4): the allocator's answer to the request numbered by the first argument for as many bytes as
the second says, where the state scripts none. No body: nothing in Lean knows it. -/
opaque allocAnswer : Nat → Nat → Bool

/-- Free value (log 27): the byte that a command's colour (r, g, b) gives to the channel 3 + k, where a parameter instance has more
than three channels. The colour operands are three bytes (R83) and no rule gives a fourth. This hardware has no such
channel. -/
opaque furtherChannel : Byte → Byte → Byte → Nat → Byte

/-- GAP_MAX (R238, D21, U11, log 18): the platform's bound on line idle time between two Transmit calls, in
picoseconds. Open; no rule of the block reads it. -/
opaque gapMax : Nat

end Sys2Proof.Config
end

