-- ==== Sys2Proof/Syntax.lean ====
section
/-! DEFINITION. The command set: one constructor per row of spec/opcode_table.json (R86). Every operand is an immediate
field of the command (R38, R81). -/

namespace Sys2Proof

/-- A command with its operand fields (R82 to R84). LED count, indices and list count are IDX_WIDTH-bit unsigned fields, "each
then used as a natural number" (R85); that they fit is `Instr.wellFormedWith`. -/
inductive Instr where
  /-- INIT, opcode 0x01, F_INIT (R82, R110): LED count, synchronous port supplied, asynchronous port supplied. -/
  | init (ledCount : Nat) (sp ap : Bool)
  /-- SET_PIXEL, opcode 0x02, F_PIX (R83, R112): pixel index and the colour in API order. -/
  | setPixel (index : Nat) (r g b : Byte)
  /-- SET_MULTI, opcode 0x03, F_MULTI (R84, R114): the listed indices (COUNT is the list's length) and the colour. -/
  | setMulti (indices : List Nat) (r g b : Byte)
  /-- CLEAR, opcode 0x04, F_NONE (R116). -/
  | clear
  /-- SHOW_SYNC, opcode 0x05, F_NONE (R170). -/
  | showSync
  /-- SHOW_ASYNC, opcode 0x06, F_NONE (R175). -/
  | showAsync
  /-- DEINIT, opcode 0x07, F_NONE (R118). -/
  | deinit
  deriving DecidableEq, Repr

end Sys2Proof
end

