-- ==== Sys2Proof/Machine/State.lean ====
section
/-! DEFINITION. The block's state (10_state.md), the environment's inputs and draws as plain data, the reasons a step can
stop, and the state after power-on reset. -/

namespace Sys2Proof.Machine

/-- A transport port (R29). -/
inductive Port where
  | sync
  | async
  deriving DecidableEq, Repr

/-- The answer field of a TRACE entry (R34). PENDING marks a call that has not been answered. -/
inductive Answer where
  | ok
  | fail
  | pending
  deriving DecidableEq, Repr

/-- One TRACE entry: a Transmit call (R34). -/
structure Entry where
  port : Port
  bytes : List Byte
  answer : Answer
  deriving DecidableEq, Repr

/-- SEQ.phase (R28). -/
inductive Phase where
  | idle
  | data
  | reset
  deriving DecidableEq, Repr

/-- A position of the frame sequencer SEQ outside the IDLE phase (R28): (DATA, p, c, k) or (RESET, j). Channels are numbered in
wire order, 0 = G, 1 = R, 2 = B (R54, R147). That 0 <= p < N, c < CHANNELS and k < SYMBOLS_PER_BYTE is part of the
invariant. -/
inductive SeqPos where
  | data (p c k : Nat)
  | reset (j : Nat)
  deriving DecidableEq, Repr

/-- STATUS (R26). -/
inductive Status where
  | ok
  | err
  deriving DecidableEq, Repr

/-- The error causes of R200: labels for reasoning, never visible on the interface (log 3). -/
inductive Cause where
  | illegalCommand
  | noInstance
  | alreadyInit
  | noPort
  | indexRange
  | allocFail
  | transportFail
  deriving DecidableEq, Repr

/-- FAULT (R33). -/
inductive FaultRecord where
  | none
  | concurrentAccess
  deriving DecidableEq, Repr

/-- What happens while a Transmit call waits for its answer: the port answers OK or FAIL (R29), or the host presents a
byte string on the command port (R211). A port that never answers is a list of events that ends (R212, log 5). -/
inductive PortEvent where
  | ok
  | fail
  | command (bytes : List Byte)
  deriving DecidableEq, Repr

/-- The contents of PSTORE: (offset, byte) cells, offsets strictly rising; an unlisted offset reads 0x00 (log 14). -/
abbrev Memory := List Host.Cell

/-- The configured state (R21 to R24) and the pixel store (R27). It exists as a whole or not at all (R118: "no
partial-destruction state"), so INST_VALID is the presence of the record (log 1). -/
structure Instance where
  /-- N, an IDX_WIDTH-bit number (R7, R22); that it fits is part of the invariant. -/
  n : Nat
  /-- SYNC_EN (R23). -/
  syncEn : Bool
  /-- ASYNC_EN (R24). -/
  asyncEn : Bool
  /-- PSTORE (R27, R50). -/
  pstore : Memory
  deriving DecidableEq, Repr

/-- A show command in execution: what exists only while BUSY = 1 (R28, R31, R32). -/
structure ShowRun where
  /-- The port of the show in progress (R170, R175). -/
  port : Port
  /-- SEQ outside IDLE (R28). -/
  pos : SeqPos
  /-- SCRATCH (R31, R55). -/
  scratch : Option (List Byte)
  /-- ABUF (R31, R54). -/
  abuf : Option (List Byte)
  deriving DecidableEq, Repr

/-- The machine's state: the block's (R21 to R34), then the environment's inputs and draws (log 4, log 5, log 6). -/
structure State where
  /-- INST_VALID, N, SYNC_EN, ASYNC_EN, PSTORE; `none` is the null instance (R21). -/
  inst : Option Instance
  /-- BUSY, SEQ, SCRATCH, ABUF; `none` is BUSY = 0 and SEQ.phase = IDLE (R28, R31, R32). -/
  run : Option ShowRun
  /-- STATUS of the last command that ended; no value before the first (R26, R37, log 2). -/
  status : Option Status
  /-- The label of the cause of the last ended command's error (R200, log 3). -/
  cause : Option Cause
  /-- FAULT (R33). -/
  fault : FaultRecord
  /-- TRACE (R34), oldest entry first. -/
  trace : List Entry
  /-- The byte stream of a host that waits for each command to end (R63, R80). -/
  commands : List Byte
  /-- The events at the successive waits of Transmit calls (R29). -/
  portEvents : List PortEvent
  /-- The allocator's next answers (R30). -/
  allocDraws : List Bool
  /-- How many answers were drawn from the free value `Config.allocAnswer`. -/
  allocCount : Nat
  deriving DecidableEq, Repr

/-- Why the machine stops. -/
inductive Fault where
  /-- Raised by every step and every command once FAULT = CONCURRENT_ACCESS (R211: "the model has no step"). Safe: where
  the spec leaves the behaviour undefined the model stops. -/
  | concurrentAccess
  /-- Raised by MemRead and MemWrite for an offset at or above CHANNELS x N = 3N, which PSTORE does not have (R50). Safe; no command
  reaches it in a state that meets the invariant. -/
  | outsideStore (offset : Nat)
  /-- Raised when a show in progress finds no instance to read (R37, U13: "A model that reads them must `fault`"). Safe; no
  state that meets the invariant reaches it. -/
  | noInstance
  deriving DecidableEq, Repr

/-- Why the machine gives no meaning. -/
inductive Refusal where
  /-- Answered by `exec` for an instruction that has no meaning yet; no arm does. Safe. -/
  | notModelled (mnemonic : String)
  /-- Answered by `step` for a byte string that ends before its format's length (R80: "the model refuses it and gives it no
  step"). Safe. -/
  | truncatedCommand
  deriving DecidableEq, Repr

/-- The state after power-on reset (R37, R230), with no input waiting (log 20). -/
def State.reset : State where
  inst := none
  run := none
  status := none
  cause := none
  fault := .none
  trace := []
  commands := []
  portEvents := []
  allocDraws := []
  allocCount := 0

/-- A step's or a command's outcome on this machine. -/
abbrev Outcome := Host.Outcome State Fault Refusal

end Sys2Proof.Machine
end

