-- ==== Sys2Proof/Machine/Flags.lean ====
section
/-! DEFINITION. STATUS, the block's only flag (R26), the cause labels of R200, and the check order of R203. -/

namespace Sys2Proof.Machine

/-- The STATUS a command ends with (R12, R26, R201): OK, or ERR whatever the cause. -/
def statusOf : Option Cause → Status
  | none => .ok
  | some _ => .err

/-- The code of a cause label (R200). -/
def Cause.code : Cause → Nat
  | .illegalCommand => 1
  | .noInstance => 2
  | .alreadyInit => 3
  | .noPort => 4
  | .indexRange => 5
  | .allocFail => 6
  | .transportFail => 7

/-- The place of a cause in the check order (R203), whose place 5 is SHOW_ASYNC's N = 0 no-op: the first applicable is
reported. -/
def Cause.rank : Cause → Nat
  | .illegalCommand => 1
  | .noInstance => 2
  | .alreadyInit => 2
  | .noPort => 3
  | .indexRange => 4
  | .allocFail => 6
  | .transportFail => 7

end Sys2Proof.Machine
end

