-- ==== Sys2Proof/Machine/Operands.lean ====
section
/-! DEFINITION. How operand fields are used: colours from API order to store order (R15, R56), and the sizes and the index check
that the LED count gives (R7, R50, R54). -/

namespace Sys2Proof.Machine

open Sys2Proof.Config (Params)

/-- A pixel as the store holds it: the triple (G, R, B) (R10, R51). -/
structure Pixel where
  g : Byte
  r : Byte
  b : Byte
  deriving DecidableEq, Repr

/-- The colour operands of a command, which come in API order r, g, b, as the channel bytes of a pixel in the order of the store
and the wire: 0 = G, 1 = R, 2 = B (R15, R56, R83). A further channel takes the free value (log 27). -/
def colour (r g b : Byte) : Nat → Byte
  | 0 => g
  | 1 => r
  | 2 => b
  | k + 3 => Config.furtherChannel r g b k

/-- A dark pixel (R116). -/
def dark (_ : Nat) : Byte := 0#8

/-- The size of the store, CHANNELS x N = 3 x N bytes, an exact natural number (R7, R50). -/
def Instance.storeBytes (P : Params) (x : Instance) : Nat := P.channels * x.n

/-- The symbols of a pixel, CHANNELS x SYMBOLS_PER_BYTE = 24 (R148). -/
def pixelSymbols (P : Params) : Nat := P.channels * P.symbolsPerByte

/-- The size of the frame buffer, 24 x N bytes, an exact natural number (R7, R54). -/
def Instance.frameBytes (P : Params) (x : Instance) : Nat := pixelSymbols P * x.n

/-- Is pixel `i` one of the N pixels (R112, R114)? -/
def Instance.hasPixel (x : Instance) (i : Nat) : Bool := decide (i < x.n)

end Sys2Proof.Machine
end

