-- ==== Sys2Proof/Machine/Ops.lean ====
section
/-! DEFINITION. The shared operations: PSTORE accesses (R10, R50, R51), the views of the grouped state, the allocator
draw (R30), Transmit (R11, R34), the end of a command (R12), the error exit (R205) and the FAULT of R211. -/

namespace Sys2Proof.Machine

open Sys2Proof.Config (Params)

/-! ### Memory -/

/-- What an unlisted offset of PSTORE reads as: INIT zero-fills the store (R52, R53, log 14). -/
def Memory.blank : Byte := 0x00#8

/-- The byte the memory holds at an offset. -/
def Memory.read : Memory → Nat → Byte
  | [], _ => Memory.blank
  | (b, w) :: m, a => if a = b then w else Memory.read m a

/-- Put a listed cell in its place. -/
def Memory.insert (a : Nat) (v : Byte) : Memory → Memory
  | [] => [(a, v)]
  | (b, w) :: m =>
    if a < b then (a, v) :: (b, w) :: m
    else if a = b then (a, v) :: m
    else (b, w) :: Memory.insert a v m

/-- Write one byte, keeping the canonical form: a byte equal to what an unlisted offset reads as is not listed. -/
def Memory.write (m : Memory) (a : Nat) (v : Byte) : Memory :=
  if v = Memory.blank then m.filter (fun c => c.1 ≠ a) else Memory.insert a v m

/-- The canonical form: offsets strictly rising, no cell that holds what an unlisted offset reads as. -/
abbrev Memory.wf (m : Memory) : Prop :=
  m.Pairwise (fun c d => c.1 < d.1) ∧ ∀ c ∈ m, c.2 ≠ Memory.blank

/-! ### PSTORE accessors -/

/-- The offset of channel `c` of pixel `p`: CHANNELS x p + c, which is 3p + c (R50, R51). -/
def channelOffset (P : Params) (p c : Nat) : Nat := P.channels * p + c

/-- `MemRead(a, 1)` (R10, R50): offsets at or above 3N do not exist. -/
def Instance.memRead (P : Params) (x : Instance) (a : Nat) : Except Fault Byte :=
  if a < x.storeBytes P then .ok (Memory.read x.pstore a) else .error (.outsideStore a)

/-- `MemWrite(a, 1, v)` (R10, R50). -/
def Instance.memWrite (P : Params) (x : Instance) (a : Nat) (v : Byte) : Except Fault Instance :=
  if a < x.storeBytes P then .ok { x with pstore := Memory.write x.pstore a v } else .error (.outsideStore a)

/-- The writes of channels 0 to k - 1 of pixel `i`, in that order. -/
def Instance.setChannels (P : Params) (x : Instance) (i : Nat) (v : Nat → Byte) : Nat → Except Fault Instance
  | 0 => .ok x
  | k + 1 =>
    match x.setChannels P i v k with
    | .error f => .error f
    | .ok y => y.memWrite P (channelOffset P i k) (v k)

/-- `PIX(i) <- (g, r, b)` (R51): every channel byte of the pixel. -/
def Instance.setPix (P : Params) (x : Instance) (i : Nat) (v : Nat → Byte) : Except Fault Instance :=
  x.setChannels P i v P.channels

/-- `for i in 0..k-1: PIX(i) <- (0x00, 0x00, 0x00)` (R112, R114, R116). -/
def Instance.clearPixels (P : Params) (x : Instance) : Nat → Except Fault Instance
  | 0 => .ok x
  | k + 1 =>
    match x.clearPixels P k with
    | .error f => .error f
    | .ok y => y.setPix P k dark

/-- `for m in 0..n-1: if idx[m] < N then PIX(idx[m]) <- (g, r, b)` (R114): an index out of range is skipped. -/
def Instance.setListed (P : Params) (x : Instance) (v : Nat → Byte) : List Nat → Except Fault Instance
  | [] => .ok x
  | i :: is =>
    if x.hasPixel i then
      match x.setPix P i v with
      | .error f => .error f
      | .ok y => y.setListed P v is
    else x.setListed P v is

/-- `Ch(p, c)` through `MemRead` (R51, R147). -/
def Instance.readChannel (P : Params) (x : Instance) (p c : Nat) : Except Fault Byte :=
  x.memRead P (channelOffset P p c)

/-- The byte `Ch(p, c)` of an existing pixel, as a function of the store's contents (R147). -/
def Instance.ch (P : Params) (x : Instance) (p c : Nat) : Byte := Memory.read x.pstore (channelOffset P p c)

/-- `PIX(i)` of an existing pixel, as a function of the store's contents (R51). -/
def Instance.pix (P : Params) (x : Instance) (i : Nat) : Pixel := ⟨x.ch P i 0, x.ch P i 1, x.ch P i 2⟩

/-- Is this port present (R23, R24, R29)? -/
def Instance.portPresent (x : Instance) : Port → Bool
  | .sync => x.syncEn
  | .async => x.asyncEn

/-! ### Views of the grouped state -/

/-- INST_VALID (R21). -/
def State.instValid (s : State) : Bool := s.inst.isSome

/-- BUSY (R32). -/
def State.busy (s : State) : Bool := s.run.isSome

/-- SEQ.phase (R28). -/
def State.phase (s : State) : Phase :=
  match s.run with
  | none => .idle
  | some run =>
    match run.pos with
    | .data _ _ _ => .data
    | .reset _ => .reset

/-- SCRATCH, where it exists (R31). -/
def State.scratch (s : State) : Option (List Byte) := s.run.bind ShowRun.scratch

/-- ABUF, where it exists (R31). -/
def State.abuf (s : State) : Option (List Byte) := s.run.bind ShowRun.abuf

/-! ### Sequencing of outcomes -/

/-- Go on from a next state; a stop stays a stop. -/
def andThen (o : Outcome) (k : State → Outcome) : Outcome :=
  match o with
  | .next s => k s
  | .fault f => .fault f
  | .refused r => .refused r

/-! ### The end of a command -/

/-- The end of a command: SCRATCH and ABUF are released, SEQ.phase <- IDLE, BUSY <- 0, STATUS as the cause says
(R12, R31, R205). -/
def State.endCommand (s : State) (c : Option Cause) : State :=
  { s with run := none, status := some (statusOf c), cause := c }

/-- `return OK` (R12). -/
def State.complete (s : State) : State := s.endCommand none

/-- `raise Error(cause)`, the one error exit (R12, R205): no further call, buffers released, IDLE, BUSY <- 0, STATUS <- ERR.
PSTORE, CONFIG, FAULT and TRACE stay. After it the block accepts the next command (R206). -/
def State.raise (s : State) (c : Cause) : State := s.endCommand (some c)

/-- The CONCURRENT_ACCESS fault (R211): FAULT <- CONCURRENT_ACCESS; the show keeps its place. -/
def State.concurrentAccess (s : State) : State := { s with fault := .concurrentAccess }

/-- Every command begins here: once FAULT is set there is no step; a command presented while BUSY = 1 sets FAULT (R211);
else the command executes. -/
def accept (s : State) (body : Outcome) : Outcome :=
  match s.fault with
  | .concurrentAccess => .fault .concurrentAccess
  | .none => if s.busy then .next s.concurrentAccess else body

/-- `if INST_VALID = 0 then raise Error(NO_INSTANCE)` (R203). -/
def withInstance (s : State) (body : Instance → Outcome) : Outcome :=
  match s.inst with
  | none => .next (s.raise .noInstance)
  | some x => body x

/-- A mutator's end: the written store takes the old one's place and the command returns OK. -/
def storeResult (s : State) (r : Except Fault Instance) : Outcome :=
  match r with
  | .error f => .fault f
  | .ok x => .next ({ s with inst := some x }).complete

/-- A command the decoder finds illegal (R87, R200): ERR, nothing else changes. -/
def execIllegal (s : State) : Outcome := accept s (.next (s.raise .illegalCommand))

/-! ### The environment's draws -/

/-- `Alloc(n)` (R11, R30): the script's next answer, else the free value (log 4). -/
def State.alloc (s : State) (n : Nat) : Bool × State :=
  match s.allocDraws with
  | a :: as => (a, { s with allocDraws := as })
  | [] => (Config.allocAnswer s.allocCount n, { s with allocCount := s.allocCount + 1 })

/-- `Transmit(port, bytes)`, the call (R11, R34): TRACE gains an entry that is not yet answered. -/
def State.transmit (s : State) (port : Port) (bytes : List Byte) : State :=
  { s with trace := s.trace ++ [⟨port, bytes, .pending⟩] }

/-- Set the answer of the last entry. -/
def answerLast (a : Answer) : List Entry → List Entry
  | [] => []
  | [e] => [{ e with answer := a }]
  | e :: f :: es => e :: answerLast a (f :: es)

/-- The answer to the outstanding call (R34). -/
def State.answerCall (s : State) (a : Answer) : State := { s with trace := answerLast a s.trace }

end Sys2Proof.Machine
end

