-- ==== Sys2Proof/Machine/PixelStore.lean ====
section
/-! DEFINITION. The pixel store commands (40_pixel_store.md): INIT, SET_PIXEL, SET_MULTI, CLEAR, DEINIT, each for any parameter
values and on this hardware. -/

namespace Sys2Proof.Machine

open Sys2Proof.Config (Params)

/-- The instance a successful INIT creates (R110): N and the port flags as given, every byte of the store 0x00 (R53). -/
def freshInstance (ledCount : Nat) (sp ap : Bool) : Instance :=
  { n := ledCount, syncEn := sp, asyncEn := ap, pstore := [] }

/-- INIT's last lines (R110): the instance comes into existence and the command returns OK. -/
def createInstance (ledCount : Nat) (sp ap : Bool) (s : State) : State :=
  ({ s with inst := some (freshInstance ledCount sp ap) }).complete

/-- INIT (R110) for any parameter values. -/
def execInitWith (P : Params) (ledCount : Nat) (sp ap : Bool) (s : State) : Outcome :=
  accept s <|
    if s.instValid then .next (s.raise .alreadyInit)
    else if sp = false ∧ ap = false then .next (s.raise .noPort)
    else if ledCount = 0 then .next (createInstance ledCount sp ap s)
    else
      let drawn := s.alloc ((freshInstance ledCount sp ap).storeBytes P)
      if drawn.1 = false then .next (drawn.2.raise .allocFail)
      else .next (createInstance ledCount sp ap drawn.2)

/-- INIT (R110) on this hardware. -/
def execInit (ledCount : Nat) (sp ap : Bool) (s : State) : Outcome := execInitWith Config.hw ledCount sp ap s

/-- The store after a SET_PIXEL of an existing pixel (R112): the pixel written, the others cleared before it where
SETPIXEL_CLEARS_ALL says so (R113). -/
def setOnePixel (P : Params) (x : Instance) (index : Nat) (v : Nat → Byte) : Except Fault Instance :=
  if P.setPixelClearsAll then
    match x.clearPixels P x.n with
    | .error f => .error f
    | .ok y => y.setPix P index v
  else x.setPix P index v

/-- SET_PIXEL (R112) for any parameter values. -/
def execSetPixelWith (P : Params) (index : Nat) (r g b : Byte) (s : State) : Outcome :=
  accept s <| withInstance s fun x =>
    if x.hasPixel index then storeResult s (setOnePixel P x index (colour r g b))
    else .next (s.raise .indexRange)

/-- SET_PIXEL (R112) on this hardware. -/
def execSetPixel (index : Nat) (r g b : Byte) (s : State) : Outcome :=
  execSetPixelWith Config.hw index r g b s

/-- SET_MULTI (R114) for any parameter values. -/
def execSetMultiWith (P : Params) (indices : List Nat) (r g b : Byte) (s : State) : Outcome :=
  accept s <| withInstance s fun x =>
    match x.clearPixels P x.n with
    | .error f => .fault f
    | .ok y => storeResult s (y.setListed P (colour r g b) indices)

/-- SET_MULTI (R114) on this hardware. -/
def execSetMulti (indices : List Nat) (r g b : Byte) (s : State) : Outcome :=
  execSetMultiWith Config.hw indices r g b s

/-- CLEAR (R116) for any parameter values. -/
def execClearWith (P : Params) (s : State) : Outcome :=
  accept s <| withInstance s fun x => storeResult s (x.clearPixels P x.n)

/-- CLEAR (R116) on this hardware. -/
def execClear (s : State) : Outcome := execClearWith Config.hw s

/-- DEINIT (R118): the store and the instance go together. No parameter is read. -/
def execDeinit (s : State) : Outcome :=
  accept s <| withInstance s fun _ => .next ({ s with inst := none }).complete

end Sys2Proof.Machine
end

