-- ==== Sys2Proof/Machine/Sequencer.lean ====
section
/-! DEFINITION. The frame sequencer SEQ and its fixed advance order (R28). `none` stands for the IDLE phase. -/

namespace Sys2Proof.Machine

open Sys2Proof.Config (Params)

/-- The first position of the RESET phase (R28); IDLE where the reset period is empty. -/
def firstReset (P : Params) : Option SeqPos :=
  if 0 < P.resetBytes then some (.reset 0) else none

/-- (DATA, p, c) at its first bit, k = SYMBOLS_PER_BYTE - 1 = 7 (R28). -/
def groupStart (P : Params) (p c : Nat) : SeqPos := .data p c (P.symbolsPerByte - 1)

/-- The first position of a frame of n pixels (R28, R172). -/
def firstPos (P : Params) (n : Nat) : Option SeqPos :=
  if 0 < P.channels * n then some (groupStart P 0 0) else firstReset P

/-- The next position (R28): k counts from 7 down to 0, then the channel, then the pixel, then the reset count; after the
last reset position the phase is IDLE. -/
def SeqPos.advance (P : Params) (n : Nat) : SeqPos → Option SeqPos
  | .data p c (k + 1) => some (.data p c k)
  | .data p c 0 =>
    if c + 1 < P.channels then some (groupStart P p (c + 1))
    else if p + 1 < n then some (groupStart P (p + 1) 0)
    else firstReset P
  | .reset j => if j + 1 < P.resetBytes then some (.reset (j + 1)) else none

/-- The position after `i` advances from the first one; `none` once the phase is IDLE. -/
def posAfter (P : Params) (n : Nat) : Nat → Option SeqPos
  | 0 => firstPos P n
  | i + 1 => (posAfter P n i).bind (SeqPos.advance P n)

/-- The last bit position of a channel byte's group, where its Transmit waits (log 8). -/
def groupEnd (p c : Nat) : SeqPos := .data p c 0

end Sys2Proof.Machine
end

