-- ==== Sys2Proof/Machine/Symbols.lean ====
section
/-! DEFINITION. The symbol map, the byte expander and the frame assembler (41_symbol_encoder.md): pure functions of PSTORE, N
and the parameters, and the call lists of the two shows (R171, R176). -/

namespace Sys2Proof.Machine

open Sys2Proof.Config (Params)

/-- `Sym` (R140). -/
def sym (P : Params) (bit : Bool) : Byte := if bit then P.sym1 else P.sym0

/-- `Expand` (R144): SYMBOLS_PER_BYTE = 8 symbols, most significant bit first, `Expand(v)(m) = Sym(v[7 - m])`. -/
def expand (P : Params) (v : Byte) : List Byte :=
  (List.range P.symbolsPerByte).map fun m => sym P (v.getLsbD (P.symbolsPerByte - 1 - m))

/-- `NLUT` (R146): the nibble table of 95_test_vectors.md 2.2, over the two symbols. -/
def nibbleTable (P : Params) : List (List Byte) :=
  let z := P.sym0
  let o := P.sym1
  [[z, z, z, z], [z, z, z, o], [z, z, o, z], [z, z, o, o], [z, o, z, z], [z, o, z, o], [z, o, o, z], [z, o, o, o],
   [o, z, z, z], [o, z, z, o], [o, z, o, z], [o, z, o, o], [o, o, z, z], [o, o, z, o], [o, o, o, z], [o, o, o, o]]

/-- The lookup form of the expander (R146): `NLUT[v[7:4]] ++ NLUT[v[3:0]]`, for eight symbols a byte. -/
def expandByTable (P : Params) (v : Byte) : List Byte :=
  (nibbleTable P).getD (v.toNat / 16) [] ++ (nibbleTable P).getD (v.toNat % 16) []

/-- The symbol groups of pixel p, one channel byte each, in G, R, B order (R144, R147). -/
def pixelGroups (P : Params) (x : Instance) (p : Nat) : List (List Byte) :=
  (List.range P.channels).map fun c => expand P (x.ch P p c)

/-- `PixSyms(p)` (R148): the 24 symbols of pixel p. -/
def pixSyms (P : Params) (x : Instance) (p : Nat) : List Byte := (pixelGroups P x p).flatten

/-- `Data(PSTORE, N)` (R149). -/
def dataStream (P : Params) (x : Instance) : List Byte := (List.range x.n).flatMap (pixSyms P x)

/-- The reset period (R151). -/
def resetPeriod (P : Params) : List Byte := List.replicate P.resetBytes P.resetByte

/-- `Frame(PSTORE, N)` (R150). -/
def frame (P : Params) (x : Instance) : List Byte := dataStream P x ++ resetPeriod P

/-- The symbol groups of the store in sequencer order (R144, R147). -/
def symbolGroups (P : Params) (x : Instance) : List (List Byte) :=
  (List.range x.n).flatMap (pixelGroups P x)

/-- The single-byte calls of the reset period (R151, R170, R175). -/
def resetCalls (P : Params) : List (List Byte) := List.replicate P.resetBytes [P.resetByte]

/-- The byte fields of SHOW_SYNC's calls, in order (R171). -/
def syncCalls (P : Params) (x : Instance) : List (List Byte) := symbolGroups P x ++ resetCalls P

/-- The byte fields of SHOW_ASYNC's calls for N >= 1, in order (R176). -/
def asyncCalls (P : Params) (x : Instance) : List (List Byte) := dataStream P x :: resetCalls P

/-- TRACE entries of calls on one port that were all answered alike. -/
def entries (port : Port) (answer : Answer) (calls : List (List Byte)) : List Entry :=
  calls.map fun bytes => ⟨port, bytes, answer⟩

/-- The concatenation of the byte fields of TRACE entries (R174). -/
def traceBytes (es : List Entry) : List Byte := es.flatMap Entry.bytes

/-- The channel byte whose bits, most significant first, are 1 exactly where the symbol is SYM1 (R152). -/
def decodeGroup (P : Params) (group : List Byte) : Byte :=
  group.foldl (fun v symbol => (v <<< 1) ||| (if symbol = P.sym1 then 1#8 else 0#8)) 0#8

/-- `Ch(p, c)` as a data stream carries it (R152): symbols 24p + 8c to 24p + 8c + 7. -/
def decodeChannel (P : Params) (stream : List Byte) (p c : Nat) : Byte :=
  decodeGroup P ((stream.drop (pixelSymbols P * p + P.symbolsPerByte * c)).take P.symbolsPerByte)

end Sys2Proof.Machine
end

