-- ==== Sys2Proof/Machine/Show.lean ====
section
/-! DEFINITION. The show commands (42_show.md). A show issues its Transmit calls in sequencer order, each after the previous
one was answered OK (R64); where the port has not answered, it waits with BUSY = 1 (R212). -/

namespace Sys2Proof.Machine

open Sys2Proof.Config (Params)

/-- SHOW_SYNC's data call at (p, c): SCRATCH <- Expand(Ch(p, c)), then Transmit(SYNC, SCRATCH) (R170, R55). -/
def issueGroup (P : Params) (x : Instance) (run : ShowRun) (p c : Nat) (s : State) : Outcome :=
  match x.readChannel P p c with
  | .error f => .fault f
  | .ok v =>
    .next (({ s with run := some { run with pos := groupEnd p c, scratch := some (expand P v) } }).transmit
      run.port (expand P v))

/-- Either show's reset call j: Transmit(port, [RESET_BYTE]) (R170, R175). -/
def issueReset (P : Params) (run : ShowRun) (j : Nat) (s : State) : State :=
  ({ s with run := some { run with pos := .reset j } }).transmit run.port [P.resetByte]

/-- Go on at a sequencer position: issue its call, or end the show with `return OK` at IDLE (R170, R175). -/
def issueAt (P : Params) (x : Instance) (run : ShowRun) (s : State) : Option SeqPos → Outcome
  | none => .next s.complete
  | some (.data p c _) => issueGroup P x run p c s
  | some (.reset j) => .next (issueReset P run j s)

/-- The outstanding call answers OK: the show goes on at the next position (R64). -/
def callAnsweredOk (P : Params) (s : State) : Outcome :=
  match s.run, s.inst with
  | some run, some x => issueAt P x run (s.answerCall .ok) (run.pos.advance P x.n)
  | _, _ => .fault .noInstance

/-- The outstanding call answers FAIL: `raise Error(TRANSPORT_FAIL)` (R173, R178). -/
def callAnsweredFail (s : State) : State := (s.answerCall .fail).raise .transportFail

/-- Run a show through the events at its waits. It stops waiting where the show ends, where the events end (the port has
not answered, R212), or where the host presents a command (R211), which the next step takes up. -/
def runShow (P : Params) : List PortEvent → State → Outcome
  | [], s => .next { s with portEvents := [] }
  | .command bytes :: es, s => .next { s with portEvents := .command bytes :: es }
  | .fail :: es, s => .next (callAnsweredFail { s with portEvents := es })
  | .ok :: es, s =>
    andThen (callAnsweredOk P s) fun t => if t.busy then runShow P es t else .next { t with portEvents := es }

/-- Let the environment answer a show that has issued its call; a show that has ended needs no answer. -/
def settle (P : Params) (s : State) : Outcome := if s.busy then runShow P s.portEvents s else .next s

/-- SHOW_SYNC begins: BUSY <- 1, SEQ.phase <- DATA (R170). -/
def syncRun (P : Params) : ShowRun := { port := .sync, pos := groupStart P 0 0, scratch := none, abuf := none }

/-- SHOW_ASYNC has filled ABUF: SEQ has run through the DATA phase (R175, log 8). -/
def asyncRun (P : Params) (x : Instance) : ShowRun :=
  { port := .async, pos := groupEnd (x.n - 1) (P.channels - 1), scratch := none, abuf := some (dataStream P x) }

/-- SHOW_SYNC (R170) for any parameter values. -/
def execShowSyncWith (P : Params) (s : State) : Outcome :=
  accept s <| withInstance s fun x =>
    if x.syncEn = false then .next (s.raise .noPort)
    else andThen (issueAt P x (syncRun P) s (firstPos P x.n)) (settle P)

/-- SHOW_ASYNC (R175) for any parameter values. -/
def execShowAsyncWith (P : Params) (s : State) : Outcome :=
  accept s <| withInstance s fun x =>
    if x.asyncEn = false then .next (s.raise .noPort)
    else if x.n = 0 then .next s.complete
    else
      let drawn := s.alloc (x.frameBytes P)
      if drawn.1 = false then .next (drawn.2.raise .allocFail)
      else settle P (({ drawn.2 with run := some (asyncRun P x) }).transmit .async (dataStream P x))

/-- SHOW_SYNC (R170) on this hardware. -/
def execShowSync (s : State) : Outcome := execShowSyncWith Config.hw s

/-- SHOW_ASYNC (R175) on this hardware. -/
def execShowAsync (s : State) : Outcome := execShowAsyncWith Config.hw s

/-- A show that was waiting goes on with the events that have come (R29, R212), for any parameter values. -/
def resumeShowWith (P : Params) (s : State) : Outcome := runShow P s.portEvents s

/-- A show that was waiting goes on, on this hardware. -/
def resumeShow (s : State) : Outcome := resumeShowWith Config.hw s

end Sys2Proof.Machine
end

