-- ==== Sys2Proof/Machine/Dispatch.lean ====
section
/-! DEFINITION. The meaning of each command: one arm per row of the opcode table. -/

namespace Sys2Proof.Machine

def exec (i : Instr) (s : State) : Host.Outcome State Fault Refusal :=
  match i with
  | .init ledCount sp ap => Sys2Proof.Machine.execInit ledCount sp ap s
  | .setPixel index r g b => Sys2Proof.Machine.execSetPixel index r g b s
  | .setMulti indices r g b => Sys2Proof.Machine.execSetMulti indices r g b s
  | .clear => Sys2Proof.Machine.execClear s
  | .showSync => Sys2Proof.Machine.execShowSync s
  | .showAsync => Sys2Proof.Machine.execShowAsync s
  | .deinit => Sys2Proof.Machine.execDeinit s

end Sys2Proof.Machine
end

