-- ==== Sys2Proof/WellFormed.lean ====
section
/-! DEFINITION. Which instruction terms are commands: those whose operands fit the fields of their format. -/

namespace Sys2Proof

open Sys2Proof.Config (Params)

/-- An operand fits its field of IDX_WIDTH bits (R7, R85). -/
def Config.Params.fits (P : Params) (v : Nat) : Bool := decide (v < 2 ^ P.idxWidth)

/-- LEDCOUNT, INDEX, COUNT and each IDX_m are IDX_WIDTH-bit values (R84, R85); COUNT is the list's length. -/
def Instr.wellFormedWith (P : Params) : Instr → Bool
  | .init ledCount _ _ => P.fits ledCount
  | .setPixel index _ _ _ => P.fits index
  | .setMulti indices _ _ _ => P.fits indices.length && indices.all P.fits
  | .clear => true
  | .showSync => true
  | .showAsync => true
  | .deinit => true

/-- The commands of this hardware: IDX_WIDTH = 16. -/
def Instr.wellFormed (i : Instr) : Bool := i.wellFormedWith Config.hw

end Sys2Proof
end

