-- ==== Sys2Proof/Decode.lean ====
section
/-! DEFINITION. The command decoder, total on any bytes, rejecting by name; and the encoder, written from the same field
tables (R80 to R88). -/

namespace Sys2Proof

open Sys2Proof.Config (Params)

/-- Why a command is illegal (R87). -/
inductive Reject where
  /-- Opcode 0x00 or 0x08 to 0xFF. -/
  | reservedOpcode (op : Byte)
  /-- An F_INIT command whose RSV bits are not all 0; the field byte. -/
  | reservedBits (flags : Byte)
  /-- An operand that does not fit IDX_WIDTH bits: only where IDX_WIDTH is no whole number of bytes (log 22), so never on this
  hardware. -/
  | wideOperand
  deriving DecidableEq, Repr

/-- What the decoder reads from a byte string: a command and the bytes after it, an illegal command and the bytes after
it, or a string that ends before its format's length (R80: not a command). -/
inductive Decoded where
  | command (i : Instr) (rest : List Byte)
  | illegal (why : Reject) (rest : List Byte)
  | truncated
  deriving DecidableEq, Repr

/-- The bytes of an IDX_WIDTH-bit operand field (R82 to R84): two for IDX_WIDTH = 16. -/
def Config.Params.fieldBytes (P : Params) : Nat := (P.idxWidth + 7) / 8

/-- Operand assembly (R85): the low byte first, `v = zext(byte_lo) + 256 x zext(byte_hi)`; and the bytes after the field. -/
def takeField : Nat → List Byte → Option (Nat × List Byte)
  | 0, bs => some (0, bs)
  | k + 1, b :: bs =>
    match takeField k bs with
    | some (v, rest) => some (b.toNat + 256 * v, rest)
    | none => none
  | _ + 1, [] => none

/-- `k` bytes of the number `w`, the byte of its bits 7 to 0 first (R85; the numbering of spec/opcode_table.json). -/
def littleEndian : Nat → Nat → List Byte
  | 0, _ => []
  | k + 1, w => BitVec.ofNat 8 w :: littleEndian k (w / 256)

/-- The first `n` index fields of F_MULTI (R84) and the bytes after them. -/
def takeIndices (P : Params) : Nat → List Byte → Option (List Nat × List Byte)
  | 0, bs => some ([], bs)
  | n + 1, bs =>
    match takeField P.fieldBytes bs with
    | none => none
    | some (i, bs) =>
      match takeIndices P n bs with
      | none => none
      | some (is, rest) => some (i :: is, rest)

/-- A command whose operands fit IDX_WIDTH bits. -/
def checkOperands (P : Params) (i : Instr) (rest : List Byte) : Decoded :=
  if i.wellFormedWith P then .command i rest else .illegal .wideOperand rest

/-- The operand bytes of F_INIT (R82): LEDCOUNT, then SP in bit 0, AP in bit 1, RSV in bits 7:2. -/
def decodeInit (P : Params) (bs : List Byte) : Decoded :=
  match takeField P.fieldBytes bs with
  | some (n, flags :: rest) =>
    if flags.extractLsb' 2 6 = 0#6 then checkOperands P (.init n (flags.getLsbD 0) (flags.getLsbD 1)) rest
    else .illegal (.reservedBits flags) rest
  | _ => .truncated

/-- The operand bytes of F_PIX (R83): INDEX, RV, GV, BV. -/
def decodePix (P : Params) (bs : List Byte) : Decoded :=
  match takeField P.fieldBytes bs with
  | some (i, r :: g :: b :: rest) => checkOperands P (.setPixel i r g b) rest
  | _ => .truncated

/-- The operand bytes of F_MULTI (R84): COUNT, COUNT indices, RV, GV, BV. -/
def decodeMulti (P : Params) (bs : List Byte) : Decoded :=
  match takeField P.fieldBytes bs with
  | some (count, bs) =>
    match takeIndices P count bs with
    | some (is, r :: g :: b :: rest) => checkOperands P (.setMulti is r g b) rest
    | _ => .truncated
  | none => .truncated

/-- The opcode map (R86), given the bytes after the opcode. Every other opcode is illegal (R87) and is a command of one byte
(R88), so that decoding goes on at the next byte. -/
def decodeOpcode (P : Params) (op : Byte) (bs : List Byte) : Decoded :=
  match op.toNat with
  | 1 => decodeInit P bs
  | 2 => decodePix P bs
  | 3 => decodeMulti P bs
  | 4 => .command .clear bs
  | 5 => .command .showSync bs
  | 6 => .command .showAsync bs
  | 7 => .command .deinit bs
  | _ => .illegal (.reservedOpcode op) bs

/-- The decoder for any parameter values, total on any bytes (R80, R86 to R88). -/
def decodeWith (P : Params) : List Byte → Decoded
  | [] => .truncated
  | op :: bs => decodeOpcode P op bs

/-- The decoder of this hardware. -/
def decode (bs : List Byte) : Decoded := decodeWith Config.hw bs

/-- The opcode of a command (R86). -/
def opcode : Instr → Byte
  | .init _ _ _ => 0x01#8
  | .setPixel _ _ _ _ => 0x02#8
  | .setMulti _ _ _ _ => 0x03#8
  | .clear => 0x04#8
  | .showSync => 0x05#8
  | .showAsync => 0x06#8
  | .deinit => 0x07#8

/-- Byte 3 of F_INIT (R82): SP in bit 0, AP in bit 1, RSV zero. -/
def flagsByte (sp ap : Bool) : Byte :=
  (if sp then 1#8 else 0#8) ||| (if ap then 2#8 else 0#8)

/-- An operand field's bytes (R82 to R85). -/
def field (P : Params) (v : Nat) : List Byte := littleEndian P.fieldBytes v

/-- The operand bytes of a command (R82 to R84). -/
def operandBytes (P : Params) : Instr → List Byte
  | .init n sp ap => field P n ++ [flagsByte sp ap]
  | .setPixel i r g b => field P i ++ [r, g, b]
  | .setMulti is r g b => field P is.length ++ (is.flatMap (field P) ++ [r, g, b])
  | .clear => []
  | .showSync => []
  | .showAsync => []
  | .deinit => []

/-- The encoder for any parameter values: the byte string of a command (R80: byte 0 is the opcode, the operand fields
follow). -/
def encodeWith (P : Params) (i : Instr) : List Byte := opcode i :: operandBytes P i

/-- The encoder of this hardware. -/
def encode (i : Instr) : List Byte := encodeWith Config.hw i

/-- The length of the command that begins with these bytes (R81, R88). -/
def commandLength (P : Params) : List Byte → Nat
  | [] => 1
  | op :: bs =>
    if op = 0x01#8 then P.fieldBytes + 2
    else if op = 0x02#8 then P.fieldBytes + 4
    else if op = 0x03#8 then
      match takeField P.fieldBytes bs with
      | some (count, _) => P.fieldBytes + 4 + P.fieldBytes * count
      | none => 1
    else 1

/-- The bytes of the one instruction whose low `nbits` bits are those of `w` and whose other bits are 0: as many bytes as
its own length (R88) says. -/
def layoutWord (nbits w : Nat) : List Byte :=
  let bs := littleEndian (nbits / 8) w
  let len := commandLength Config.hw (bs ++ List.replicate 3 0#8)
  (bs ++ List.replicate len 0#8).take len

/-- The instruction the decoder reads from a word numbered as spec/opcode_table.json numbers it. -/
def decodeTableWord (nbits w : Nat) : Option Instr :=
  match decode (layoutWord nbits w) with
  | .command i _ => some i
  | .illegal _ _ => none
  | .truncated => none

end Sys2Proof
end

