-- ==== Sys2Proof/Machine/Fetch.lean ====
section
/-! DEFINITION. What the next step takes up: the command port's next byte string, or the events at a waiting show (R80, R211,
R212, log 6). -/

namespace Sys2Proof.Machine

open Sys2Proof.Config (Params)

/-- What the next step does. -/
inductive Fetched where
  /-- FAULT is set: there is no step (R211). -/
  | dead
  /-- Nothing has come: the idle block waits for a command (R230), the waiting show for an answer (R212). -/
  | wait
  /-- The port has answered the show's outstanding call (R29). -/
  | answered
  /-- A command, and the state with its bytes taken. -/
  | command (i : Instr) (s : State)
  /-- An illegal command (R87), and the state with its bytes taken. -/
  | illegal (s : State)
  /-- A byte string that is no command (R80). -/
  | truncated
  deriving DecidableEq, Repr

/-- The decoder's reading of a byte string, with the state that has taken it. -/
def fetchBytes (P : Params) (bytes : List Byte) (taken : List Byte → State) : Fetched :=
  match decodeWith P bytes with
  | .command i rest => .command i (taken rest)
  | .illegal _ rest => .illegal (taken rest)
  | .truncated => .truncated

/-- What the next step takes up. While a show waits, a command reaches the block only as an event at that wait (R211); a
host that serialises its commands delivers the next one after the show has ended (R63). -/
def fetchWith (P : Params) (s : State) : Fetched :=
  match s.fault with
  | .concurrentAccess => .dead
  | .none =>
    match s.run with
    | none =>
      match s.commands with
      | [] => .wait
      | b :: bs => fetchBytes P (b :: bs) fun rest => { s with commands := rest }
    | some _ =>
      match s.portEvents with
      | [] => .wait
      | .ok :: _ => .answered
      | .fail :: _ => .answered
      | .command bytes :: es => fetchBytes P bytes fun _ => { s with portEvents := es }

/-- What the next step of this hardware takes up. -/
def fetch (s : State) : Fetched := fetchWith Config.hw s

/-- One step, given what is taken up, what executes a command and what resumes a waiting show (R63, R80, R87, R211, R212). -/
def stepBy (execute : Instr → State → Outcome) (resume : State → Outcome) (s : State) : Fetched → Outcome
  | .dead => .fault .concurrentAccess
  | .wait => .next s
  | .answered => resume s
  | .command i t => execute i t
  | .illegal t => execIllegal t
  | .truncated => .refused .truncatedCommand

/-- Put a byte string where the next fetch finds it: first in the command stream; where a show waits, at that wait. -/
def State.present (s : State) (bytes : List Byte) : State :=
  match s.run with
  | none => { s with commands := bytes ++ s.commands }
  | some _ => { s with portEvents := .command bytes :: s.portEvents }

end Sys2Proof.Machine
end

