-- ==== Sys2Proof/Machine/Step.lean ====
section
/-! DEFINITION. One step of the machine: one command, or one resumption of a waiting show. -/

namespace Sys2Proof.Machine

/-- One step (R63, R80, R87, R211, R212) on this hardware. -/
def step (s : State) : Host.Outcome State Fault Refusal := stepBy exec resumeShow s (fetch s)

/-- The state whose next step runs the instruction of a word (numbered as spec/opcode_table.json numbers it): its bytes are
delivered next (log 20, log 21). -/
def State.withFetchWord (s : State) (nbits w : Nat) : State := s.present (layoutWord nbits w)

end Sys2Proof.Machine
end

