-- ==== Sys2Proof/Machine/Link.lean ====
section
/-! DEFINITION. Which byte sequences the link may have carried, given TRACE (R64, R207, U3, log 17). The link is not state of
the block; the relation says no more about it than the spec does. -/

namespace Sys2Proof.Machine

/-- A call answered OK put exactly its bytes on the link, in order (R29, R64); of a call answered FAIL, or not yet
answered, any prefix may have reached it (R207, U3). -/
def linkCarries : List Entry → List Byte → Prop
  | [], link => link = []
  | e :: es, link =>
    ∃ sent rest, link = sent ++ rest ∧ linkCarries es rest ∧
      match e.answer with
      | .ok => sent = e.bytes
      | .fail => sent <+: e.bytes
      | .pending => sent <+: e.bytes

end Sys2Proof.Machine
end

