-- ==== Sys2Proof/Machine/Parametric.lean ====
section
/-! DEFINITION. The machine with every parameter of R5 as an argument: "A model takes each one as an argument and fixes it to
the value shown unless a claim names another." `exec` and `step` are these at `Config.hw`. -/

namespace Sys2Proof.Machine

open Sys2Proof.Config (Params)

/-- A command's meaning for any parameter values. -/
def execWith (P : Params) (i : Instr) (s : State) : Outcome :=
  match i with
  | .init ledCount sp ap => execInitWith P ledCount sp ap s
  | .setPixel index r g b => execSetPixelWith P index r g b s
  | .setMulti indices r g b => execSetMultiWith P indices r g b s
  | .clear => execClearWith P s
  | .showSync => execShowSyncWith P s
  | .showAsync => execShowAsyncWith P s
  | .deinit => execDeinit s

/-- One step for any parameter values. -/
def stepWith (P : Params) (s : State) : Outcome := stepBy (execWith P) (resumeShowWith P) s (fetchWith P s)

end Sys2Proof.Machine
end

