-- ==== Sys2Proof/Machine/Timing.lean ====
section
/-! DEFINITION. The timing figures of R142, R155 and R246 to R248, in picoseconds: information about the parameter values. The
model has no time and no meaning reads these (R245, log 18). -/

namespace Sys2Proof.Machine

open Sys2Proof.Config (Params)

/-- The high time of a 1 symbol the source targets, 625 ns (R141, R246). -/
def targetHigh1Ps : Nat := 625000

/-- The high time of a 0 symbol the source targets, 312 ns (R141, R246). -/
def targetHigh0Ps : Nat := 312000

/-- The LED's reset threshold, 280 us (R151, R155). -/
def resetThresholdPs : Nat := 280000000

/-- `round(high / t_bit)` with `t_bit = T_BYTE / 8` (R155). DESIGN CHOICE (log 26): the spec does not say how `round` treats an
exact half; the model rounds it up. -/
def highBits (P : Params) (highPs : Nat) : Nat := (16 * highPs + P.tBytePs) / (2 * P.tBytePs)

/-- The byte with `k` leading 1 bits and 0 bits after them (R155). DESIGN CHOICE (log 26): the spec says nothing of a count
above 8, which fits no byte; the model answers 0xFF. -/
def leadingOnes (k : Nat) : Byte := BitVec.ofNat 8 (2 ^ 8 - 2 ^ (8 - k))

/-- SYM1 as R155 re-derives it from T_BYTE. -/
def derivedSym1 (P : Params) : Byte := leadingOnes (highBits P targetHigh1Ps)

/-- SYM0 as R155 re-derives it from T_BYTE. -/
def derivedSym0 (P : Params) : Byte := leadingOnes (highBits P targetHigh0Ps)

/-- R155: RESET_BYTES x T_BYTE must exceed 280 us. -/
def resetLongEnough (P : Params) : Bool := decide (resetThresholdPs < P.resetBytes * P.tBytePs)

/-- The least time a frame of n >= 1 pixels occupies on the link (R248). -/
def frameDurationPs (P : Params) (n : Nat) : Nat := (pixelSymbols P * n + P.resetBytes) * P.tBytePs

end Sys2Proof.Machine
end

