-- ==== Sys2Proof/Safety.lean ====
section
/-! DEFINITION. What counts as a legal state and a safe run, in the terms claims use: the machine's invariant, the serialising
host, the growth of TRACE, and which error causes apply to a command (R203). -/

namespace Sys2Proof.Machine

open Sys2Proof.Config (Params)

/-! ### The invariant -/

/-- A legal instance: N fits IDX_WIDTH bits (R7, R22), at least one port is present (R24), the store is in canonical form and
lists only its 3N offsets (R50). -/
abbrev Instance.Wf (P : Params) (x : Instance) : Prop :=
  x.n < 2 ^ P.idxWidth ∧ (x.syncEn = true ∨ x.asyncEn = true) ∧ Memory.wf x.pstore ∧ ∀ c ∈ x.pstore, c.1 < x.storeBytes P

/-- A sequencer position at which a show may wait (R28, log 8). -/
def posLegal (P : Params) (x : Instance) (run : ShowRun) : Bool :=
  match run.port, run.pos with
  | .sync, .data p c k => decide (p < x.n) && decide (c < P.channels) && decide (k = 0)
  | .async, .data p c k => decide (p + 1 = x.n) && decide (c = P.channels - 1) && decide (k = 0)
  | .sync, .reset j => decide (j < P.resetBytes)
  | .async, .reset j => decide (j < P.resetBytes) && decide (0 < x.n)

/-- The bytes of the call outstanding at a position (R60, R171, R176). -/
def callBytes (P : Params) (x : Instance) (run : ShowRun) : List Byte :=
  match run.port, run.pos with
  | .sync, .data p c _ => expand P (x.ch P p c)
  | .async, .data _ _ _ => dataStream P x
  | _, .reset _ => [P.resetByte]

/-- The last symbol group of a frame of at least one pixel (R28): channel B of pixel N - 1. -/
def lastGroup (P : Params) (x : Instance) : List Byte := expand P (x.ch P (x.n - 1) (P.channels - 1))

/-- What SCRATCH holds while a show waits (R31, R55, log 9). -/
def scratchAt (P : Params) (x : Instance) (run : ShowRun) : Option (List Byte) :=
  match run.port, run.pos with
  | .sync, .data p c _ => some (expand P (x.ch P p c))
  | .sync, .reset _ => if 0 < x.storeBytes P then some (lastGroup P x) else none
  | .async, _ => none

/-- What ABUF holds while a show waits (R31, R54). -/
def abufAt (P : Params) (x : Instance) (run : ShowRun) : Option (List Byte) :=
  match run.port with
  | .sync => none
  | .async => some (dataStream P x)

/-- A legal show in progress: its port is present (R29), its position is in range (R28), its buffers hold what R54 and R55
say. -/
abbrev ShowRun.Wf (P : Params) (x : Instance) (run : ShowRun) : Prop :=
  x.portPresent run.port = true ∧ posLegal P x run = true ∧
    run.scratch = scratchAt P x run ∧ run.abuf = abufAt P x run

/-- Every call has been answered. -/
abbrev allAnswered (es : List Entry) : Prop := ∀ e ∈ es, e.answer ≠ .pending

/-- Is this the length of a symbol call on the port (R60): 8 on SYNC, 24 for each of N >= 1 pixels on ASYNC,
so never 0? Only where a parameter instance's pixel has no symbol is ASYNC's data call empty (log 22). -/
def symbolLength (P : Params) (port : Port) (length : Nat) : Bool :=
  match port with
  | .sync => decide (length = P.symbolsPerByte)
  | .async => (decide (0 < length) || decide (pixelSymbols P = 0)) && decide (length % pixelSymbols P = 0)

/-- R60: a call carries one reset byte, or symbols in one of the two legal lengths; never zero bytes where a
channel byte and a pixel have symbols. -/
abbrev Entry.Wf (P : Params) (e : Entry) : Prop :=
  e.bytes = [P.resetByte] ∨
    ((∀ b ∈ e.bytes, b = P.sym1 ∨ b = P.sym0) ∧ symbolLength P e.port e.bytes.length = true)

/-- The invariant of the machine, for any parameter values: the instance is legal; a show in progress is legal and its
outstanding call is TRACE's last entry and its only unanswered one (R204); an idle block has no unanswered call (R66); FAULT is
set only while a show is in progress (R211); every call is of R60's kinds; STATUS is ERR exactly where a cause is recorded
(R201). -/
abbrev State.InvWith (P : Params) (s : State) : Prop :=
  (∀ x ∈ s.inst, x.Wf P) ∧
  (∀ run ∈ s.run, ∃ x ∈ s.inst, run.Wf P x ∧
    s.trace.getLast? = some ⟨run.port, callBytes P x run, .pending⟩ ∧ allAnswered s.trace.dropLast) ∧
  (s.run = none → allAnswered s.trace) ∧
  (s.fault = .concurrentAccess → s.busy = true) ∧
  (∀ e ∈ s.trace, e.Wf P) ∧
  ((s.status = none ∧ s.cause = none) ∨ s.status = some (statusOf s.cause))

/-- The invariant on this hardware. -/
abbrev State.Inv (s : State) : Prop := s.InvWith Config.hw

/-! ### Runs -/

/-- The block is idle and may take a command: no FAULT, BUSY = 0 (R206). -/
abbrev State.Idle (s : State) : Prop := s.fault = .none ∧ s.run = none

/-- The host serialises its commands (R210): it presents none while a show waits. -/
abbrev State.Serialised (s : State) : Prop := ∀ e ∈ s.portEvents, e = .ok ∨ e = .fail

/-- TRACE grows (R34): entries are only added, and only the answer of the outstanding call, a last entry that is PENDING, is
set, to OK or FAIL. -/
abbrev traceGrows (es fs : List Entry) : Prop :=
  ∃ new, fs = es ++ new ∨
    ∃ (old : List Entry) (e : Entry) (a : Answer),
      es = old ++ [e] ∧ e.answer = .pending ∧ a ≠ .pending ∧ fs = old ++ [{ e with answer := a }] ++ new

/-- Is this command a show (R14)? -/
def isShow : Instr → Bool
  | .showSync => true
  | .showAsync => true
  | .init _ _ _ => false
  | .setPixel _ _ _ _ => false
  | .setMulti _ _ _ _ => false
  | .clear => false
  | .deinit => false

/-- The bytes a show of this instance sends on a port, call by call (R171, R176, R177). -/
def showCalls (P : Params) (x : Instance) : Port → List (List Byte)
  | .sync => syncCalls P x
  | .async => if x.n = 0 then [] else asyncCalls P x

/-- The number of 1 bits of a byte (R145). -/
def popcount (v : Byte) : Nat := (List.range 8).countP fun k => v.getLsbD k

/-! ### Which error causes apply -/

/-- Is this command INIT? -/
def isInit : Instr → Bool
  | .init _ _ _ => true
  | .setPixel _ _ _ _ => false
  | .setMulti _ _ _ _ => false
  | .clear => false
  | .showSync => false
  | .showAsync => false
  | .deinit => false

/-- NO_PORT (R200): INIT with no port supplied, or a show whose port the instance does not have. -/
def noPortApplies (i : Instr) (inst : Option Instance) : Bool :=
  match i with
  | .init _ sp ap => !sp && !ap
  | .showSync => inst.any fun x => !x.syncEn
  | .showAsync => inst.any fun x => !x.asyncEn
  | .setPixel _ _ _ _ => false
  | .setMulti _ _ _ _ => false
  | .clear => false
  | .deinit => false

/-- INDEX_RANGE (R200): only SET_PIXEL. -/
def indexRangeApplies (i : Instr) (inst : Option Instance) : Bool :=
  match i with
  | .setPixel index _ _ _ => inst.any fun x => !x.hasPixel index
  | .init _ _ _ => false
  | .setMulti _ _ _ _ => false
  | .clear => false
  | .showSync => false
  | .showAsync => false
  | .deinit => false

/-- ALLOC_FAIL (R200): INIT or SHOW_ASYNC with N >= 1, where the allocator refuses. -/
def allocFailApplies (i : Instr) (s : State) : Bool :=
  match i with
  | .init n _ _ => decide (n ≠ 0) && !(s.alloc (3 * n)).1
  | .showAsync => s.inst.any fun x => decide (x.n ≠ 0) && !(s.alloc (24 * x.n)).1
  | .setPixel _ _ _ _ => false
  | .setMulti _ _ _ _ => false
  | .clear => false
  | .showSync => false
  | .deinit => false

/-- Does a cause of R200 apply to a command given at an idle state (R203)? A transport failure is not known before the
calls are made, so it may apply to either show. -/
def causeApplies (c : Cause) (i : Instr) (s : State) : Bool :=
  match c with
  | .illegalCommand => false
  | .noInstance => !isInit i && !s.instValid
  | .alreadyInit => isInit i && s.instValid
  | .noPort => noPortApplies i s.inst
  | .indexRange => indexRangeApplies i s.inst
  | .allocFail => allocFailApplies i s
  | .transportFail => isShow i

end Sys2Proof.Machine
end

