-- ==== Sys2Proof/Certificates/Slice0/Obligations.lean ====
section
/-! DEFINITION. The statements for the provers. `s.Idle` is: no FAULT, BUSY = 0. A record update in a conclusion is the frame:
every field it does not name is as before. -/

open Sys2Proof Sys2Proof.Machine
open Sys2Proof.Config (Params)

/-! ### Encoding -/

/-- Tier 3. Decoding the encoding of a well-formed command gives it back, with the bytes after it (R80 to R88). -/
def Obligations.DecodeOfEncodeIsTheCommand : Prop :=
  ∀ (i : Instr) (rest : List Byte), i.wellFormed = true → decode (encode i ++ rest) = .command i rest

/-- Each byte string that decodes to a command is that command's encoding and the bytes after it: no two encodings of one
command, no bit ignored (R80 to R88). -/
def Obligations.DecodedBytesAreTheEncoding : Prop :=
  ∀ (bs : List Byte) (i : Instr) (rest : List Byte), decode bs = .command i rest →
    i.wellFormed = true ∧ bs = encode i ++ rest

/-- The vectors X1 and X6 to X10 of 95_test_vectors.md. -/
def Obligations.WrittenOutWordsDecode : Prop :=
  decode [0x05#8] = .command .showSync [] ∧
  decode [0x01#8, 0x02#8, 0x00#8, 0x00#8] = .command (.init 2 false false) [] ∧
  decode [0x01#8, 0x2C#8, 0x01#8, 0x03#8] = .command (.init 300 true true) [] ∧
  decode [0x02#8, 0x02#8, 0x01#8, 0x01#8, 0x02#8, 0x03#8] = .command (.setPixel 258 0x01#8 0x02#8 0x03#8) [] ∧
  decode [0x03#8, 0x00#8, 0x00#8, 0x09#8, 0x09#8, 0x09#8] = .command (.setMulti [] 0x09#8 0x09#8 0x09#8) [] ∧
  decode [0x03#8, 0x03#8, 0x00#8, 0x00#8, 0x00#8, 0x02#8, 0x00#8, 0x05#8, 0x00#8, 0x01#8, 0x02#8, 0x03#8] =
    .command (.setMulti [0, 2, 5] 0x01#8 0x02#8 0x03#8) []

/-- R87 and R88 (the spec's decision D12): the reserved opcodes and the F_INIT commands with reserved bits set are illegal,
an illegal opcode taking one byte; an illegal command ends with ERR, ILLEGAL_COMMAND, and changes nothing else. -/
def Obligations.IllegalCommandsEndWithError : Prop :=
  (∀ (op : Byte) (bs : List Byte), op = 0x00#8 ∨ 0x08#8 ≤ op →
    decode (op :: bs) = .illegal (.reservedOpcode op) bs) ∧
  (∀ (lo hi flags : Byte) (bs : List Byte), flags.extractLsb' 2 6 ≠ 0#6 →
    decode (0x01#8 :: lo :: hi :: flags :: bs) = .illegal (.reservedBits flags) bs) ∧
  (∀ (s : State) (why : Reject) (rest : List Byte), s.Idle → decode s.commands = .illegal why rest →
    step s = .next { s with commands := rest, status := some .err, cause := some .illegalCommand })

/-- R80 (the spec's decision D27): a byte string that ends before its format's length has no step. -/
def Obligations.TruncatedCommandsHaveNoStep : Prop :=
  ∀ (s : State) (i : Instr) (n : Nat), s.Idle → i.wellFormed = true → 0 < n → n < (encode i).length →
    s.commands = (encode i).take n → step s = .refused .truncatedCommand

/-! ### The step -/

/-- A step runs the decoded command (the division into steps and the two streams are the model's, logs 6 and 7): at an idle
state the next one of the command stream, while a show waits the one the host presents at that wait; an answer resumes the
show. An illegal byte string presented at a wait sets FAULT like any other command (the model's reading, log 23). -/
def Obligations.StepRunsTheDecodedCommand : Prop :=
  (∀ (s : State) (i : Instr) (rest : List Byte), s.Idle → decode s.commands = .command i rest →
    step s = exec i { s with commands := rest }) ∧
  (∀ (s : State) (run : ShowRun) (bytes : List Byte) (es : List PortEvent) (i : Instr) (rest : List Byte),
    s.fault = .none → s.run = some run → s.portEvents = .command bytes :: es → decode bytes = .command i rest →
    step s = exec i { s with portEvents := es }) ∧
  (∀ (s : State) (run : ShowRun) (e : PortEvent) (es : List PortEvent),
    s.fault = .none → s.run = some run → s.portEvents = e :: es → e = .ok ∨ e = .fail → step s = resumeShow s) ∧
  (∀ (s : State) (run : ShowRun) (bytes : List Byte) (es : List PortEvent) (why : Reject) (rest : List Byte),
    s.fault = .none → s.run = some run → s.portEvents = .command bytes :: es → decode bytes = .illegal why rest →
    step s = .next { s with portEvents := es, fault := .concurrentAccess })

/-- From every legal state without FAULT, every command of the table takes a step: none stops with a fault or a refusal. -/
def Obligations.EveryCommandTakesAStep : Prop :=
  ∀ (i : Instr) (s : State), s.Inv → s.fault = .none → ∃ t, exec i s = .next t

/-- From every legal state without FAULT the machine goes on, unless the byte string delivered is no command (R80). -/
def Obligations.OnlyTruncationStopsTheMachine : Prop :=
  ∀ s : State, s.Inv → s.fault = .none →
    (∃ t, step s = .next t) ∨ (fetch s = .truncated ∧ step s = .refused .truncatedCommand)

/-- Tier 3. Every step keeps the invariant. -/
def Obligations.EveryStepKeepsTheInvariant : Prop := ∀ s t : State, s.Inv → step s = .next t → t.Inv

/-- The state after reset meets the invariant. -/
def Obligations.ResetMeetsTheInvariant : Prop := State.reset.Inv

/-- R37 and R230 (the spec's decision D13): the state after power-on reset, and that the block then waits for a command. -/
def Obligations.ResetStateIsAsSpecified : Prop :=
  State.reset.instValid = false ∧ State.reset.inst = none ∧ State.reset.busy = false ∧ State.reset.phase = .idle ∧
  State.reset.scratch = none ∧ State.reset.abuf = none ∧ State.reset.fault = .none ∧ State.reset.trace = [] ∧
  State.reset.status = none ∧ step State.reset = .next State.reset

/-! ### INIT, DEINIT and the instance -/

/-- R110: a successful INIT creates an instance with the given LED count and ports and a store that reads 0x00 everywhere;
LED count 0 asks the allocator nothing. -/
def Obligations.InitCreatesAZeroedInstance : Prop :=
  ∀ (s : State) (n : Nat) (sp ap : Bool), s.Idle → s.inst = none → sp = true ∨ ap = true →
    ∃ y : Instance, y.n = n ∧ y.syncEn = sp ∧ y.asyncEn = ap ∧ (∀ a, Memory.read y.pstore a = 0x00#8) ∧
      (n = 0 → exec (.init n sp ap) s =
        .next { s with inst := some y, status := some .ok, cause := none }) ∧
      (n ≠ 0 → (s.alloc (3 * n)).1 = true → exec (.init n sp ap) s =
        .next { (s.alloc (3 * n)).2 with inst := some y, status := some .ok, cause := none })

/-- R110, R111: INIT's three errors, in the order of R203, leave everything but STATUS (and the allocator's draw) as it was; in
particular an existing instance keeps its N, ports and PSTORE. -/
def Obligations.InitErrorsChangeNothing : Prop :=
  ∀ (s : State) (n : Nat) (sp ap : Bool), s.Idle →
    (s.instValid = true → exec (.init n sp ap) s =
      .next { s with status := some .err, cause := some .alreadyInit }) ∧
    (s.instValid = false → sp = false → ap = false → exec (.init n sp ap) s =
      .next { s with status := some .err, cause := some .noPort }) ∧
    (s.instValid = false → sp = true ∨ ap = true → n ≠ 0 → (s.alloc (3 * n)).1 = false →
      exec (.init n sp ap) s =
        .next { (s.alloc (3 * n)).2 with status := some .err, cause := some .allocFail })

/-- R30, in the model's form (log 4, the model's choice): an allocator draw is the script's head where there is one; else it
is the free value, whose counter advances; nothing else changes. -/
def Obligations.AllocatorDrawsTheScriptThenTheFreeValue : Prop :=
  (∀ (s : State) (n : Nat) (a : Bool) (as : List Bool), s.allocDraws = a :: as →
    s.alloc n = (a, { s with allocDraws := as })) ∧
  (∀ (s : State) (n : Nat), s.allocDraws = [] →
    s.alloc n = (Config.allocAnswer s.allocCount n, { s with allocCount := s.allocCount + 1 }))

/-- R118, R233: DEINIT discards the instance as a whole and keeps TRACE and FAULT; INIT may succeed after it. -/
def Obligations.DeinitLeavesNoInstance : Prop :=
  ∀ (s : State) (x : Instance), s.Idle → s.inst = some x →
    ∃ t, exec .deinit s = .next t ∧ t = { s with inst := none, status := some .ok, cause := none } ∧
      ∀ (n : Nat) (sp ap : Bool), sp = true ∨ ap = true →
        n = 0 ∨ (t.alloc (3 * n)).1 = true →
        ∃ u y, exec (.init n sp ap) t = .next u ∧ u.inst = some y ∧ y.n = n ∧ u.status = some .ok

/-- R203, R231: without an instance every command but INIT ends with NO_INSTANCE and changes nothing else. -/
def Obligations.CommandsWithoutInstanceFail : Prop :=
  ∀ (i : Instr) (s : State), s.Idle → s.inst = none → (∀ n sp ap, i ≠ .init n sp ap) →
    exec i s = .next { s with status := some .err, cause := some .noInstance }

/-- R22 to R25: N and the port flags are fixed when INIT creates the instance and no step changes them while it exists. -/
def Obligations.ConfigurationIsFixedByInit : Prop :=
  ∀ (s t : State) (x y : Instance), step s = .next t → s.inst = some x → t.inst = some y →
    y.n = x.n ∧ y.syncEn = x.syncEn ∧ y.asyncEn = x.asyncEn

/-- R53: PSTORE comes into existence zero-filled when INIT succeeds; it keeps its contents across shows, failed ones too; it
ceases to exist when DEINIT runs; its length never changes while it exists. -/
def Obligations.StoreLifetime : Prop :=
  (∀ (s t : State) (n : Nat) (sp ap : Bool), s.Idle → exec (.init n sp ap) s = .next t → t.status = some .ok →
    ∃ y, t.inst = some y ∧ y.n = n ∧ ∀ a, Memory.read y.pstore a = 0x00#8) ∧
  (∀ (i : Instr) (s t : State), isShow i = true → exec i s = .next t → t.inst = s.inst) ∧
  (∀ s t : State, s.Idle → exec .deinit s = .next t → t.inst = none) ∧
  (∀ (s t : State) (x y : Instance), step s = .next t → s.inst = some x → t.inst = some y →
    y.storeBytes Config.hw = x.storeBytes Config.hw)

/-! ### The pixel store commands -/

/-- R112: SET_PIXEL writes (g, r, b) to the pixel it names; every byte of the store outside that pixel's three reads as
before; an index at or above N is INDEX_RANGE and changes nothing. -/
def Obligations.SetPixelWritesOnlyItsPixel : Prop :=
  ∀ (s : State) (x : Instance) (index : Nat) (r g b : Byte), s.Idle → s.inst = some x →
    (index < x.n →
      ∃ y, exec (.setPixel index r g b) s = .next { s with inst := some y, status := some .ok, cause := none } ∧
        y.n = x.n ∧ y.syncEn = x.syncEn ∧ y.asyncEn = x.asyncEn ∧ y.pix Config.hw index = ⟨g, r, b⟩ ∧
        ∀ a, a < 3 * index ∨ 3 * index + 3 ≤ a →
          Memory.read y.pstore a = Memory.read x.pstore a) ∧
    (x.n ≤ index →
      exec (.setPixel index r g b) s = .next { s with status := some .err, cause := some .indexRange })

/-- R113 (the spec's decision D5): with SETPIXEL_CLEARS_ALL = true every other pixel is cleared; the range check comes
before the clear; this hardware fixes the parameter to false. The clause on `P.channels = 3` is the rule's; that a pixel has CHANNELS
bytes for another CHANNELS, and which bytes a colour gives them, is the model's choice (logs 22 and 27). -/
def Obligations.SetPixelReferenceModeClearsTheOthers : Prop :=
  Config.hw.setPixelClearsAll = false ∧
  ∀ (P : Params) (s : State) (x : Instance) (index : Nat) (r g b : Byte), P.setPixelClearsAll = true →
    s.Idle → s.inst = some x →
    (index < x.n →
      ∃ y, execSetPixelWith P index r g b s = .next { s with inst := some y, status := some .ok, cause := none } ∧
        y.n = x.n ∧ y.syncEn = x.syncEn ∧ y.asyncEn = x.asyncEn ∧
        (∀ i c, i < x.n → c < P.channels → y.ch P i c = if i = index then colour r g b c else 0x00#8) ∧
        (P.channels = 3 →
          ∀ i, i < x.n → y.pix P i = if i = index then ⟨g, r, b⟩ else ⟨0x00#8, 0x00#8, 0x00#8⟩) ∧
        ∀ a, x.storeBytes P ≤ a → Memory.read y.pstore a = Memory.read x.pstore a) ∧
    (x.n ≤ index →
      execSetPixelWith P index r g b s = .next { s with status := some .err, cause := some .indexRange })

/-- R114, R115: SET_MULTI (opcode 0x03, F_MULTI) without an instance is NO_INSTANCE; else, whatever the store held, every listed pixel
that exists is (g, r, b) and every other is dark. -/
def Obligations.SetMultiLightsExactlyTheListed : Prop :=
  ∀ (s : State) (indices : List Nat) (r g b : Byte), s.Idle →
    encode (.setMulti indices r g b) =
      0x03#8 :: (littleEndian 2 indices.length ++ (indices.flatMap (littleEndian 2) ++ [r, g, b])) ∧
    (s.inst = none →
      exec (.setMulti indices r g b) s = .next { s with status := some .err, cause := some .noInstance }) ∧
    ∀ x, s.inst = some x →
      ∃ y, exec (.setMulti indices r g b) s = .next { s with inst := some y, status := some .ok, cause := none } ∧
        y.n = x.n ∧ y.syncEn = x.syncEn ∧ y.asyncEn = x.asyncEn ∧
        (∀ i, i < x.n →
          y.pix Config.hw i = if i ∈ indices then ⟨g, r, b⟩ else ⟨0x00#8, 0x00#8, 0x00#8⟩) ∧
        ∀ a, x.storeBytes Config.hw ≤ a → Memory.read y.pstore a = Memory.read x.pstore a

/-- R114: order and repetition of the listed indices do not matter; nor do indices out of range. -/
def Obligations.SetMultiDependsOnlyOnTheListedPixels : Prop :=
  ∀ (s : State) (is js : List Nat) (r g b : Byte), s.Inv →
    (∀ x ∈ s.inst, ∀ p, p < x.n → (p ∈ is ↔ p ∈ js)) →
    exec (.setMulti is r g b) s = exec (.setMulti js r g b) s

/-- R116: CLEAR (opcode 0x04, one byte) without an instance is NO_INSTANCE; else it zeroes every byte of the store, and a
second CLEAR leaves the store as it is. -/
def Obligations.ClearZeroesTheStore : Prop :=
  encode .clear = [0x04#8] ∧
  ∀ s : State, s.Idle →
    (s.inst = none → exec .clear s = .next { s with status := some .err, cause := some .noInstance }) ∧
    ∀ x, s.inst = some x →
      ∃ t y, exec .clear s = .next t ∧ t = { s with inst := some y, status := some .ok, cause := none } ∧
        y.n = x.n ∧ y.syncEn = x.syncEn ∧ y.asyncEn = x.asyncEn ∧
        (∀ a, a < x.storeBytes Config.hw → Memory.read y.pstore a = 0x00#8) ∧
        (∀ a, x.storeBytes Config.hw ≤ a → Memory.read y.pstore a = Memory.read x.pstore a) ∧
        ∃ z, exec .clear t = .next { t with inst := some z } ∧ ∀ a, Memory.read z.pstore a = Memory.read y.pstore a

/-- R117: INIT, SET_PIXEL, SET_MULTI, CLEAR and DEINIT append nothing to TRACE and call no port. -/
def Obligations.MutatorsDoNotTransmit : Prop :=
  ∀ (i : Instr) (s t : State), isShow i = false → exec i s = .next t →
    t.trace = s.trace ∧ t.portEvents = s.portEvents ∧ t.run = s.run

/-! ### The symbol map, the expander and the frame assembler -/

/-- R144: Expand(v)(m) = Sym(v[7 - m]), with the rule's corner cases and its example. -/
def Obligations.ExpandIsMostSignificantBitFirst : Prop :=
  (∀ (P : Params) (v : Byte), P.symbolsPerByte = 8 → (expand P v).length = 8 ∧
    ∀ m, m < 8 → (expand P v)[m]? = some (if v.getLsbD (7 - m) then P.sym1 else P.sym0)) ∧
  (∀ P : Params, P.symbolsPerByte = 8 →
    expand P 0x00#8 = List.replicate 8 P.sym0 ∧ expand P 0xFF#8 = List.replicate 8 P.sym1 ∧
    expand P 0x80#8 = P.sym1 :: List.replicate 7 P.sym0 ∧ expand P 0x01#8 = List.replicate 7 P.sym0 ++ [P.sym1]) ∧
  expand Config.hw 0x3C#8 = [0xC0#8, 0xC0#8, 0xF0#8, 0xF0#8, 0xF0#8, 0xF0#8, 0xC0#8, 0xC0#8]

/-- R145 (the spec's inference from R143 and R144): length, elements, count of SYM1, injectivity. -/
def Obligations.ExpanderProperties : Prop :=
  ∀ P : Params, P.Admissible → P.symbolsPerByte = 8 →
    (∀ v, (expand P v).length = 8) ∧
    (∀ v, ∀ b ∈ expand P v, b = P.sym1 ∨ b = P.sym0) ∧
    (∀ v, (expand P v).count P.sym1 = popcount v) ∧
    (∀ v w, expand P v = expand P w → v = w)

/-- R146: the nibble table form of the expander is the expander, for every byte and every pair of symbols. -/
def Obligations.NibbleTableIsTheExpander : Prop :=
  ∀ (P : Params) (v : Byte), P.symbolsPerByte = 8 → expandByTable P v = expand P v

/-- R149: the data stream is the pixels' symbols in order; its length, each of its elements, and that it is empty for N = 0. -/
def Obligations.DataStreamLayout : Prop :=
  ∀ (P : Params) (x : Instance), P.channels = 3 → P.symbolsPerByte = 8 →
    dataStream P x = ((List.range x.n).map fun p =>
      expand P (x.ch P p 0) ++ expand P (x.ch P p 1) ++ expand P (x.ch P p 2)).flatten ∧
    (dataStream P x).length = 24 * x.n ∧
    (∀ p c m : Nat, p < x.n → c < 3 → m < 8 →
      (dataStream P x)[24 * p + 8 * c + m]? = some (sym P ((x.ch P p c).getLsbD (7 - m)))) ∧
    (x.n = 0 → dataStream P x = [])

/-- R150: the frame of N >= 1 pixels on this hardware: the data stream and then 240 zero bytes. -/
def Obligations.FrameLayout : Prop :=
  ∀ x : Instance, 0 < x.n →
    frame Config.hw x = dataStream Config.hw x ++ List.replicate 240 0x00#8 ∧
    (frame Config.hw x).length = 24 * x.n + 240

/-- Tier 3. R152 (the spec's inference from R143 and R149): for different symbols, a sequence of 24N symbols is the data stream
of a store of N pixels, and the store's channel bytes are read back from it. -/
def Obligations.DataStreamDecodesToOneStore : Prop :=
  ∀ P : Params, P.Admissible → P.channels = 3 → P.symbolsPerByte = 8 →
    (∀ (x : Instance) (p c : Nat), p < x.n → c < 3 → decodeChannel P (dataStream P x) p c = x.ch P p c) ∧
    (∀ (n : Nat) (stream : List Byte), stream.length = 24 * n →
      (∀ b ∈ stream, b = P.sym1 ∨ b = P.sym0) → ∃ x : Instance, x.n = n ∧ dataStream P x = stream)

/-- R28: the sequencer's fixed order: pixels ascending, G then R then B, bits 7 down to 0, then the reset count, then IDLE. -/
def Obligations.SequencerVisitsTheFixedOrder : Prop :=
  ∀ (P : Params) (n : Nat), P.channels = 3 → P.symbolsPerByte = 8 →
    (∀ p c k : Nat, p < n → c < 3 → k < 8 → posAfter P n (24 * p + 8 * c + (7 - k)) = some (.data p c k)) ∧
    (∀ j, j < P.resetBytes → posAfter P n (24 * n + j) = some (.reset j)) ∧
    (∀ i, 24 * n + P.resetBytes ≤ i → posAfter P n i = none)

/-! ### The shows -/

/-- R171 (the spec's inference from R170), R172 for N = 0: when every call answers OK, SHOW_SYNC appends exactly 3N + 240
entries, all on SYNC, and returns OK. -/
def Obligations.SyncShowSucceeds : Prop :=
  ∀ (s : State) (x : Instance) (es : List PortEvent), s.Idle → s.inst = some x → x.syncEn = true →
    s.portEvents = List.replicate (3 * x.n + 240) .ok ++ es →
    ∃ calls : List (List Byte), calls.length = 3 * x.n + 240 ∧
      (∀ p c : Nat, p < x.n → c < 3 → calls[3 * p + c]? = some (expand Config.hw (x.ch Config.hw p c))) ∧
      (∀ j, j < 240 → calls[3 * x.n + j]? = some [0x00#8]) ∧
      exec .showSync s = .next { s with
        trace := s.trace ++ calls.map fun bytes => ⟨.sync, bytes, .ok⟩, portEvents := es,
        status := some .ok, cause := none }

/-- R173 (the spec's inference from R170 and R205): when call k of SHOW_SYNC answers FAIL and the calls before it OK, TRACE gains
exactly those k + 1 entries and the command ends with TRANSPORT_FAIL, in the data phase and the reset phase alike. -/
def Obligations.SyncShowStopsAtTheFirstFailure : Prop :=
  ∀ (s : State) (x : Instance) (k : Nat) (es : List PortEvent), s.Idle → s.inst = some x → x.syncEn = true →
    k < 3 * x.n + 240 → s.portEvents = List.replicate k .ok ++ .fail :: es →
    ∃ bytes, (syncCalls Config.hw x)[k]? = some bytes ∧
      exec .showSync s = .next { s with
        trace := s.trace ++ entries .sync .ok ((syncCalls Config.hw x).take k) ++ [⟨.sync, bytes, .fail⟩],
        portEvents := es, status := some .err, cause := some .transportFail }

/-- R176 (the spec's inference from R175): when storage is had and every call answers OK, SHOW_ASYNC with N >= 1 appends exactly
241 entries, all on ASYNC, the data stream first, and returns OK. -/
def Obligations.AsyncShowSucceeds : Prop :=
  ∀ (s : State) (x : Instance) (es : List PortEvent), s.Idle → s.inst = some x → x.asyncEn = true → 0 < x.n →
    (s.alloc (24 * x.n)).1 = true → s.portEvents = List.replicate 241 .ok ++ es →
    exec .showAsync s = .next { (s.alloc (24 * x.n)).2 with
      trace := s.trace ++ ⟨.async, dataStream Config.hw x, .ok⟩ :: List.replicate 240 ⟨.async, [0x00#8], .ok⟩,
      portEvents := es, status := some .ok, cause := none }

/-- R178 (the spec's inference from R175 and R205): the three failures of SHOW_ASYNC with N >= 1. -/
def Obligations.AsyncShowFailures : Prop :=
  ∀ (s : State) (x : Instance), s.Idle → s.inst = some x → x.asyncEn = true → 0 < x.n →
    ((s.alloc (24 * x.n)).1 = false →
      exec .showAsync s = .next { (s.alloc (24 * x.n)).2 with
        status := some .err, cause := some .allocFail }) ∧
    (∀ es, (s.alloc (24 * x.n)).1 = true → s.portEvents = .fail :: es →
      exec .showAsync s = .next { (s.alloc (24 * x.n)).2 with
        trace := s.trace ++ [⟨.async, dataStream Config.hw x, .fail⟩], portEvents := es,
        status := some .err, cause := some .transportFail }) ∧
    (∀ (j : Nat) (es : List PortEvent), (s.alloc (24 * x.n)).1 = true → j < 240 →
      s.portEvents = List.replicate (1 + j) .ok ++ .fail :: es →
      exec .showAsync s = .next { (s.alloc (24 * x.n)).2 with
        trace := s.trace ++ ⟨.async, dataStream Config.hw x, .ok⟩ ::
          (List.replicate j ⟨.async, [0x00#8], .ok⟩ ++ [⟨.async, [0x00#8], .fail⟩]),
        portEvents := es, status := some .err, cause := some .transportFail })

/-- R172, R177, R242 (the spec's decisions D6 and D7): with N = 0 SHOW_ASYNC returns OK, asks the allocator nothing and sends
nothing, while SHOW_SYNC sends the reset period. -/
def Obligations.ShowsOfNoPixels : Prop :=
  ∀ (s : State) (x : Instance), s.Idle → s.inst = some x → x.n = 0 →
    (x.asyncEn = true → exec .showAsync s = .next { s with status := some .ok, cause := none }) ∧
    (∀ es, x.syncEn = true → s.portEvents = List.replicate 240 .ok ++ es →
      exec .showSync s = .next { s with
        trace := s.trace ++ List.replicate 240 ⟨.sync, [0x00#8], .ok⟩, portEvents := es,
        status := some .ok, cause := none })

/-- R170, R175, R177: a show whose port is not present is NO_PORT, before anything is sent or asked, N = 0 included. -/
def Obligations.ShowsNeedTheirPort : Prop :=
  ∀ (s : State) (x : Instance), s.Idle → s.inst = some x →
    (x.syncEn = false → exec .showSync s = .next { s with status := some .err, cause := some .noPort }) ∧
    (x.asyncEn = false → exec .showAsync s = .next { s with status := some .err, cause := some .noPort })

/-- R212, in the model's form: while the port does not answer call k, the show does not end: BUSY stays 1, no STATUS is produced
(`status` keeps the last ended command's, the model's reading, log 2), the call's entry stays PENDING, and the step leaves the
state as it is, however often it is taken (the model's wait, log 7). -/
def Obligations.UnansweredShowWaitsForEver : Prop :=
  (∀ (s : State) (x : Instance) (k : Nat), s.Idle → s.inst = some x → x.syncEn = true → k < 3 * x.n + 240 →
    s.portEvents = List.replicate k .ok →
    ∃ t bytes, (syncCalls Config.hw x)[k]? = some bytes ∧ exec .showSync s = .next t ∧ t.busy = true ∧
      t.inst = s.inst ∧ t.fault = .none ∧ t.status = s.status ∧ t.portEvents = [] ∧
      t.trace = s.trace ++ entries .sync .ok ((syncCalls Config.hw x).take k) ++ [⟨.sync, bytes, .pending⟩]) ∧
  (∀ (s : State) (x : Instance) (k : Nat), s.Idle → s.inst = some x → x.asyncEn = true → 0 < x.n →
    (s.alloc (24 * x.n)).1 = true → k < 241 → s.portEvents = List.replicate k .ok →
    ∃ t bytes, (asyncCalls Config.hw x)[k]? = some bytes ∧ exec .showAsync s = .next t ∧ t.busy = true ∧
      t.inst = s.inst ∧ t.fault = .none ∧ t.status = s.status ∧ t.portEvents = [] ∧
      t.trace = s.trace ++ entries .async .ok ((asyncCalls Config.hw x).take k) ++ [⟨.async, bytes, .pending⟩]) ∧
  (∀ (t : State) (m : Nat), t.fault = .none → t.busy = true → t.portEvents = [] →
    Host.Core.run ⟨State, Fault, Refusal, step, State.reset⟩ m t = .next t)

/-- R28, R31, R54, R55: SEQ and the transient buffers while SHOW_SYNC waits at channel c of pixel p and at reset call j, and while
SHOW_ASYNC waits; none of them once the command has ended. SEQ's place at a wait (log 8) and SCRATCH in the reset phase (log 9)
are the model's reading. -/
def Obligations.TransientBuffersWhileWaiting : Prop :=
  (∀ (s : State) (x : Instance) (p c : Nat), s.Idle → s.inst = some x → x.syncEn = true → p < x.n → c < 3 →
    s.portEvents = List.replicate (3 * p + c) .ok →
    ∃ t, exec .showSync s = .next t ∧ t.run.map ShowRun.pos = some (.data p c 0) ∧ t.phase = .data ∧
      t.scratch = some (expand Config.hw (x.ch Config.hw p c)) ∧ t.abuf = none) ∧
  (∀ (s : State) (x : Instance) (j : Nat), s.Idle → s.inst = some x → x.syncEn = true → j < 240 →
    s.portEvents = List.replicate (3 * x.n + j) .ok →
    ∃ t, exec .showSync s = .next t ∧ t.run.map ShowRun.pos = some (.reset j) ∧ t.phase = .reset ∧
      t.scratch = (if 0 < x.n then some (expand Config.hw (x.ch Config.hw (x.n - 1) 2)) else none) ∧ t.abuf = none) ∧
  (∀ (s : State) (x : Instance) (k : Nat), s.Idle → s.inst = some x → x.asyncEn = true → 0 < x.n →
    (s.alloc (24 * x.n)).1 = true → k < 241 → s.portEvents = List.replicate k .ok →
    ∃ t, exec .showAsync s = .next t ∧
      t.run.map ShowRun.pos = some (if k = 0 then .data (x.n - 1) 2 0 else .reset (k - 1)) ∧
      t.phase = (if k = 0 then .data else .reset) ∧ t.abuf = some (dataStream Config.hw x) ∧ t.scratch = none) ∧
  (∀ t : State, t.busy = false → t.run.map ShowRun.pos = none ∧ t.phase = .idle ∧ t.scratch = none ∧ t.abuf = none)

/-- The waits (the model's division into steps, log 7) are seamless: a show that runs out of answers and is resumed
with the rest ends as if it had had them all at once. -/
def Obligations.ResumedShowIsTheUninterruptedShow : Prop :=
  ∀ (i : Instr) (s t : State) (a b : List PortEvent), isShow i = true → s.Idle → (∀ e ∈ a, e = .ok ∨ e = .fail) →
    exec i { s with portEvents := a } = .next t → t.busy = true →
    exec i { s with portEvents := a ++ b } = resumeShow { t with portEvents := b }

/-- R64, R170, R175, R202: whatever the draws, a show's entries are the first calls of its list, in order and on its own port;
every one but the last was answered OK. -/
def Obligations.TransmitsFollowTheCallList : Prop :=
  ∀ (s t : State) (x : Instance), s.Idle → s.inst = some x →
    (exec .showSync s = .next t →
      ∃ new, t.trace = s.trace ++ new ∧ new.map Entry.bytes <+: showCalls Config.hw x .sync ∧
        (∀ e ∈ new, e.port = .sync) ∧ ∀ e ∈ new.dropLast, e.answer = .ok) ∧
    (exec .showAsync s = .next t →
      ∃ new, t.trace = s.trace ++ new ∧ new.map Entry.bytes <+: showCalls Config.hw x .async ∧
        (∀ e ∈ new, e.port = .async) ∧ ∀ e ∈ new.dropLast, e.answer = .ok)

/-- R181, with the spec's inferences R174 (from R170) and R176 (from R175): whatever the draws, a show of N >= 1 pixels that
ends with OK had every call answered OK, and the bytes it sent, and so the bytes on the link, are the whole frame. -/
def Obligations.SuccessfulShowSendsTheFrame : Prop :=
  ∀ (i : Instr) (s t : State) (x : Instance), isShow i = true → s.Idle → s.inst = some x → 0 < x.n →
    exec i s = .next t → t.busy = false → t.status = some .ok →
    ∃ new, t.trace = s.trace ++ new ∧ (∀ e ∈ new, e.answer = .ok) ∧ traceBytes new = frame Config.hw x ∧
      ∀ link, linkCarries new link ↔ link = frame Config.hw x

/-- R153, with the spec's inference R179: the data stream and the frame depend only on N and the store's bytes (for another CHANNELS,
SYMBOLS_PER_BYTE or IDX_WIDTH in the model's form, log 22, the model's choice), and so do the bytes of two successful shows of
N >= 1 pixels, of the same kind or not, whatever else differs between the two states. -/
def Obligations.ShowBytesDependOnlyOnTheStore : Prop :=
  ∀ x y : Instance, x.n = y.n →
    (∀ P : Params, (∀ a, a < x.storeBytes P → Memory.read x.pstore a = Memory.read y.pstore a) →
      dataStream P x = dataStream P y ∧ frame P x = frame P y) ∧
    ((∀ a, a < 3 * x.n → Memory.read x.pstore a = Memory.read y.pstore a) →
      ∀ (i j : Instr) (s t u v : State), isShow i = true → isShow j = true → s.Idle → u.Idle →
        s.inst = some x → u.inst = some y → 0 < x.n → exec i s = .next t → exec j u = .next v →
        t.busy = false → v.busy = false → t.status = some .ok → v.status = some .ok →
        ∃ new new', t.trace = s.trace ++ new ∧ v.trace = u.trace ++ new' ∧ traceBytes new = traceBytes new')

/-- R180: the shows never write PSTORE, INST_VALID, N, SYNC_EN or ASYNC_EN, whether they succeed, fail or wait, begun or
resumed; when one has ended, its only lasting effects are the TRACE entries it appended and its STATUS (with its label), and
the answers it took from the environment. -/
def Obligations.ShowsWriteNoState : Prop :=
  (∀ (i : Instr) (s t : State), isShow i = true → exec i s = .next t → t.inst = s.inst) ∧
  (∀ s t : State, resumeShow s = .next t → t.inst = s.inst ∧ t.commands = s.commands ∧ t.fault = s.fault) ∧
  (∀ (i : Instr) (s t : State), isShow i = true → s.Idle → exec i s = .next t → t.busy = false →
    ∃ new status cause es draws count,
      t = { s with
        trace := s.trace ++ new, status := some status, cause := cause, portEvents := es, allocDraws := draws,
        allocCount := count })

/-! ### Errors, FAULT, and whole-machine rules -/

/-- R202: a failed Transmit and a failed allocation end their command at once; nothing is tried again: a failed call is the
show's last. -/
def Obligations.FailureEndsTheCommandAtOnce : Prop :=
  (∀ (i : Instr) (s t : State) (new : List Entry) (e : Entry), isShow i = true → s.Idle → exec i s = .next t →
    t.trace = s.trace ++ new → e ∈ new → e.answer = .fail →
    t.busy = false ∧ t.status = some .err ∧ t.cause = some .transportFail ∧ new.getLast? = some e) ∧
  (∀ (s : State) (es : List PortEvent), s.portEvents = .fail :: es →
    resumeShow s = .next { s with
      run := none, trace := answerLast .fail s.trace, portEvents := es,
      status := some .err, cause := some .transportFail }) ∧
  (∀ (s : State) (n : Nat) (sp ap : Bool), s.Idle → s.inst = none → sp = true ∨ ap = true → n ≠ 0 →
    (s.alloc (3 * n)).1 = false →
    exec (.init n sp ap) s =
      .next { (s.alloc (3 * n)).2 with status := some .err, cause := some .allocFail }) ∧
  (∀ (s : State) (x : Instance), s.Idle → s.inst = some x → x.asyncEn = true → 0 < x.n →
    (s.alloc (24 * x.n)).1 = false →
    exec .showAsync s =
      .next { (s.alloc (24 * x.n)).2 with status := some .err, cause := some .allocFail })

/-- R205 (with the spec's inference and decision D26): a command that ends with ERR leaves PSTORE, CONFIG and FAULT as they
were, releases its buffers, and only adds entries to TRACE. -/
def Obligations.ErrorExitIsPrecise : Prop :=
  ∀ (i : Instr) (s t : State), s.Idle → exec i s = .next t → t.busy = false → t.status = some .err →
    t.inst = s.inst ∧ t.fault = s.fault ∧ t.commands = s.commands ∧ t.phase = .idle ∧ t.scratch = none ∧
      t.abuf = none ∧ ∃ new, t.trace = s.trace ++ new

/-- R203 (the spec's decision D9): the cause a command ends with applies to it and no applicable cause comes before it in the
check order; and a command to which a cause of places 1 to 4 applies ends with ERR and an unchanged TRACE. -/
def Obligations.FirstApplicableCauseIsReported : Prop :=
  ∀ (i : Instr) (s t : State), s.Idle → exec i s = .next t →
    (∀ c, t.busy = false → t.cause = some c →
      causeApplies c i s = true ∧ ∀ d, causeApplies d i s = true → c.rank ≤ d.rank) ∧
    (∀ d, causeApplies d i s = true → d.rank ≤ 4 →
      t.busy = false ∧ t.status = some .err ∧ t.cause ≠ none ∧ t.trace = s.trace)

/-- R211 (the spec's decision D14): any command presented while BUSY = 1 sets FAULT and does nothing else; from then on there is
no step and no command. That setting FAULT is itself a next state (log 16) and that an illegal command sets it too (log 23) are
the model's choice. -/
def Obligations.CommandDuringAShowIsAFault : Prop :=
  (∀ (i : Instr) (s : State), s.fault = .none → s.busy = true →
    exec i s = .next { s with fault := .concurrentAccess }) ∧
  (∀ s : State, s.fault = .none → s.busy = true → execIllegal s = .next { s with fault := .concurrentAccess }) ∧
  (∀ (i : Instr) (s : State), s.fault = .concurrentAccess →
    step s = .fault .concurrentAccess ∧ exec i s = .fault .concurrentAccess)

/-- R210, R211: a host that serialises its commands never reaches the fault. -/
def Obligations.SerialisedHostNeverFaults : Prop :=
  ∀ s t : State, s.Serialised → s.fault = .none → step s = .next t → t.Serialised ∧ t.fault = .none

/-- R34: in a legal state a step only adds entries to TRACE and may answer the outstanding call, the last entry, which is
PENDING; it changes no other entry, and no answer once given. -/
def Obligations.TraceOnlyGrows : Prop := ∀ s t : State, s.Inv → step s = .next t → traceGrows s.trace t.trace

/-- R142, R155, R246 to R248 (the spec's inferences; timing information only, log 18; no exact half is rounded, log 26): at T_BYTE
= 1.25 us the re-derived symbols are this hardware's, the reset period exceeds 280 us, and the frame durations of F2 and F5 are
330 us and 2.1 ms. -/
def Obligations.TimingFigures : Prop :=
  derivedSym1 Config.hw = Config.hw.sym1 ∧ derivedSym0 Config.hw = Config.hw.sym0 ∧ Config.hw.Admissible ∧
  resetLongEnough Config.hw = true ∧ frameDurationPs Config.hw 1 = 330000000 ∧
  frameDurationPs Config.hw 60 = 2100000000

/-! ### The parameters as arguments (R5) -/

/-- R5: the values of this hardware; the machine with the parameters as an argument, at those values, is the machine. -/
def Obligations.ParametricMachineAtThisHardware : Prop :=
  Config.hw = {
    sym1 := 0xF0#8, sym0 := 0xC0#8, resetBytes := 240, resetByte := 0x00#8, symbolsPerByte := 8, channels := 3,
    idxWidth := 16, setPixelClearsAll := false, tBytePs := 1250000 } ∧
  (∀ (i : Instr) (s : State), execWith Config.hw i s = exec i s) ∧ ∀ s : State, stepWith Config.hw s = step s

/-- R5, and the model's choice (log 22) to read the numerals of R7, R28, R50, R54, R85, R144, R147 to R149, R171 and R176 as the
parameters they come from: IDX_WIDTH bounds every operand field, CHANNELS and SYMBOLS_PER_BYTE give every size, the place of every
symbol and the sequencer's order, for every value of each (its reset positions where a byte has a symbol at all). -/
def Obligations.LayoutParametersGiveTheSizes : Prop :=
  ∀ P : Params,
    (∀ (n : Nat) (sp ap : Bool), (Instr.init n sp ap).wellFormedWith P = true ↔ n < 2 ^ P.idxWidth) ∧
    (∀ (n : Nat) (r g b : Byte), (Instr.setPixel n r g b).wellFormedWith P = true ↔ n < 2 ^ P.idxWidth) ∧
    (∀ (is : List Nat) (r g b : Byte), (Instr.setMulti is r g b).wellFormedWith P = true ↔
      is.length < 2 ^ P.idxWidth ∧ ∀ i ∈ is, i < 2 ^ P.idxWidth) ∧
    (∀ v : Byte, (expand P v).length = P.symbolsPerByte) ∧
    (∀ x : Instance, x.storeBytes P = P.channels * x.n ∧
      x.frameBytes P = P.channels * P.symbolsPerByte * x.n ∧
      (dataStream P x).length = P.channels * P.symbolsPerByte * x.n ∧
      (syncCalls P x).length = P.channels * x.n + P.resetBytes ∧ (asyncCalls P x).length = 1 + P.resetBytes ∧
      ∀ p c m : Nat, p < x.n → c < P.channels → m < P.symbolsPerByte →
        (dataStream P x)[P.channels * P.symbolsPerByte * p + P.symbolsPerByte * c + m]? =
          some (sym P ((x.ch P p c).getLsbD (P.symbolsPerByte - 1 - m)))) ∧
    (∀ n p c k j : Nat,
      (p < n → c < P.channels → k < P.symbolsPerByte →
        posAfter P n (P.channels * P.symbolsPerByte * p + P.symbolsPerByte * c + (P.symbolsPerByte - 1 - k)) =
          some (.data p c k)) ∧
      (0 < P.symbolsPerByte → j < P.resetBytes →
        posAfter P n (P.channels * P.symbolsPerByte * n + j) = some (.reset j)) ∧
      (0 < P.symbolsPerByte → P.channels * P.symbolsPerByte * n + P.resetBytes ≤ j → posAfter P n j = none))

/-- R5, with the spec's inferences R171 and R176 (their words are 3N and 24N; that these are CHANNELS x N and CHANNELS x
SYMBOLS_PER_BYTE x N for other values is the model's choice, log 22; that a show has no reset phase for RESET_BYTES = 0 is its
reading, log 24): for every value of the parameters, the two shows of N >= 1 pixels send their call lists when storage is had and
every call answers OK, and those calls carry the frame. -/
def Obligations.ShowsSucceedForEveryParameterValue : Prop :=
  ∀ (P : Params) (s : State) (x : Instance) (es : List PortEvent), s.Idle → s.inst = some x → 0 < x.n →
    (x.syncEn = true → s.portEvents = List.replicate (P.channels * x.n + P.resetBytes) .ok ++ es →
      execWith P .showSync s = .next { s with
        trace := s.trace ++ (syncCalls P x).map fun bytes => ⟨.sync, bytes, .ok⟩, portEvents := es,
        status := some .ok, cause := none }) ∧
    (x.asyncEn = true → (s.alloc (P.channels * P.symbolsPerByte * x.n)).1 = true →
      s.portEvents = List.replicate (1 + P.resetBytes) .ok ++ es →
      execWith P .showAsync s = .next { (s.alloc (P.channels * P.symbolsPerByte * x.n)).2 with
        trace := s.trace ++ ⟨.async, dataStream P x, .ok⟩ :: List.replicate P.resetBytes ⟨.async, [P.resetByte], .ok⟩,
        portEvents := es, status := some .ok, cause := none }) ∧
    (syncCalls P x).flatten = frame P x ∧ dataStream P x ++ List.replicate P.resetBytes P.resetByte = frame P x

/-- Tier 3. R5 with R80 to R88, whose fields are those of IDX_WIDTH = 16; the fields of another width, ceil(IDX_WIDTH / 8) bytes and
a value that fits, are the model's choice (log 22): for every IDX_WIDTH, decoding the encoding of a command whose operands fit gives
it back, and each byte string that decodes to a command is that command's encoding. -/
def Obligations.DecodeOfEncodeForEveryIndexWidth : Prop :=
  ∀ (P : Params) (i : Instr) (rest : List Byte),
    (i.wellFormedWith P = true → decodeWith P (encodeWith P i ++ rest) = .command i rest) ∧
    ∀ bs : List Byte, decodeWith P bs = .command i rest → i.wellFormedWith P = true ∧ bs = encodeWith P i ++ rest

/-- R5 with R110, R112, R114 and R116, whose words are for three channels: that their 3 is CHANNELS, and that fewer channels take a
colour's first bytes in wire order, is the model's choice (log 22); a fourth channel's byte is its free value (log 27). So, for
every value of the parameters, INIT asks for CHANNELS x N bytes; a pixel is written in each of its CHANNELS bytes, which are g, r, b
in wire order; everything else of the store reads as before. -/
def Obligations.PixelStoreCommandsForEveryParameterValue : Prop :=
  ∀ (P : Params) (s : State) (r g b : Byte), s.Idle →
    (colour r g b 0 = g ∧ colour r g b 1 = r ∧ colour r g b 2 = b) ∧
    (∀ (n : Nat) (sp ap : Bool), s.inst = none → sp = true ∨ ap = true → 0 < n →
      (s.alloc (P.channels * n)).1 = true →
      ∃ y : Instance, y.n = n ∧ y.syncEn = sp ∧ y.asyncEn = ap ∧ (∀ a, Memory.read y.pstore a = 0x00#8) ∧
        execWith P (.init n sp ap) s =
          .next { (s.alloc (P.channels * n)).2 with inst := some y, status := some .ok, cause := none }) ∧
    ∀ x : Instance, s.inst = some x →
      (∀ index, P.setPixelClearsAll = false → index < x.n →
        ∃ y, execWith P (.setPixel index r g b) s =
            .next { s with inst := some y, status := some .ok, cause := none } ∧
          y.n = x.n ∧ y.syncEn = x.syncEn ∧ y.asyncEn = x.asyncEn ∧
          (∀ c, c < P.channels → y.ch P index c = colour r g b c) ∧
          ∀ a, a < P.channels * index ∨ P.channels * index + P.channels ≤ a →
            Memory.read y.pstore a = Memory.read x.pstore a) ∧
      (∀ indices : List Nat,
        ∃ y, execWith P (.setMulti indices r g b) s =
            .next { s with inst := some y, status := some .ok, cause := none } ∧
          y.n = x.n ∧ y.syncEn = x.syncEn ∧ y.asyncEn = x.asyncEn ∧
          (∀ i c, i < x.n → c < P.channels → y.ch P i c = if i ∈ indices then colour r g b c else 0x00#8) ∧
          ∀ a, P.channels * x.n ≤ a → Memory.read y.pstore a = Memory.read x.pstore a) ∧
      ∃ y, execWith P .clear s = .next { s with inst := some y, status := some .ok, cause := none } ∧
        y.n = x.n ∧ y.syncEn = x.syncEn ∧ y.asyncEn = x.asyncEn ∧
        (∀ a, a < P.channels * x.n → Memory.read y.pstore a = 0x00#8) ∧
        ∀ a, P.channels * x.n ≤ a → Memory.read y.pstore a = Memory.read x.pstore a

/-- R5, at values other than this hardware's in the model's form (log 22, the model's choice; logs 6, 7, 16 and 23 as for the step
of this hardware): for every value of the parameters, zeros included, every command takes a step from every state without FAULT; a
step is what the decoded command does, taken from an idle block's stream or presented at a wait; an answer resumes the show; and from
a legal state the machine goes on unless the byte string delivered is no command (R80). -/
def Obligations.MachineRunsForEveryParameterValue : Prop :=
  ∀ (P : Params) (s : State), s.fault = .none →
    (∀ i : Instr, ∃ t, execWith P i s = .next t) ∧
    (s.run = none →
      (∀ (i : Instr) (rest : List Byte), decodeWith P s.commands = .command i rest →
        stepWith P s = execWith P i { s with commands := rest }) ∧
      ∀ (why : Reject) (rest : List Byte), decodeWith P s.commands = .illegal why rest →
        stepWith P s = .next { s with commands := rest, status := some .err, cause := some .illegalCommand }) ∧
    (∀ (run : ShowRun) (bytes : List Byte) (es : List PortEvent), s.run = some run →
      s.portEvents = .command bytes :: es →
      (∀ (i : Instr) (rest : List Byte), decodeWith P bytes = .command i rest →
        stepWith P s = execWith P i { s with portEvents := es }) ∧
      ∀ (why : Reject) (rest : List Byte), decodeWith P bytes = .illegal why rest →
        stepWith P s = .next { s with portEvents := es, fault := .concurrentAccess }) ∧
    (∀ (run : ShowRun) (e : PortEvent) (es : List PortEvent), s.run = some run → s.portEvents = e :: es →
      e = .ok ∨ e = .fail → stepWith P s = resumeShowWith P s) ∧
    (s.InvWith P → (∃ t, stepWith P s = .next t) ∨
      (fetchWith P s = .truncated ∧ stepWith P s = .refused .truncatedCommand))

/-- Tier 3. R5, at values other than this hardware's in the model's form (logs 22 and 24, the model's choice and reading): every step
keeps the invariant, for every value of the parameters, zeros included. -/
def Obligations.EveryStepKeepsTheInvariantForEveryParameterValue : Prop :=
  ∀ (P : Params) (s t : State), s.InvWith P → stepWith P s = .next t → t.InvWith P
end

