-- ==== Sys2Proof/Laws/Decode.lean ====
section
/-! SUPPORT. The laws of operand fields, of the index list, of the reserved bits and of the operand check, for the round trip of
decoder and encoder at any parameter values. -/

namespace Sys2Proof

open Sys2Proof.Config (Params)

/-! ### Operand fields (R85) -/

@[simp] theorem littleEndian_length (k w : Nat) : (littleEndian k w).length = k := by
  induction k generalizing w with
  | zero => rfl
  | succ k ih => simp [littleEndian, ih]

/-- A field reads back, modulo its width. -/
theorem takeField_littleEndian (k v : Nat) (rest : List Byte) :
    takeField k (littleEndian k v ++ rest) = some (v % 256 ^ k, rest) := by
  induction k generalizing v with
  | zero => simp [takeField, littleEndian, Nat.mod_one]
  | succ k ih =>
    simp only [littleEndian, List.cons_append, takeField, ih, BitVec.toNat_ofNat]
    rw [show 256 ^ (k + 1) = 256 * 256 ^ k by rw [Nat.pow_succ, Nat.mul_comm], Nat.mod_mul]

/-- What the field reader reads is what the encoder writes. -/
theorem takeField_eq_some {k : Nat} {bs : List Byte} {v : Nat} {rest : List Byte}
    (h : takeField k bs = some (v, rest)) : bs = littleEndian k v ++ rest ∧ v < 256 ^ k := by
  induction k generalizing bs v with
  | zero =>
    simp only [takeField, Option.some.injEq, Prod.mk.injEq] at h
    obtain ⟨rfl, rfl⟩ := h
    exact ⟨rfl, by simp⟩
  | succ k ih =>
    cases bs with
    | nil => simp [takeField] at h
    | cons b bs =>
      rw [takeField] at h
      cases hr : takeField k bs with
      | none => simp [hr] at h
      | some q =>
        obtain ⟨w, rest'⟩ := q
        simp only [hr, Option.some.injEq, Prod.mk.injEq] at h
        obtain ⟨rfl, rfl⟩ := h
        obtain ⟨rfl, hw⟩ := ih hr
        have hb := b.isLt
        refine ⟨?_, by rw [Nat.pow_succ]; omega⟩
        have h1 : (b.toNat + 256 * w) / 256 = w := by omega
        have h2 : BitVec.ofNat 8 (b.toNat + 256 * w) = b := by
          apply BitVec.eq_of_toNat_eq
          rw [BitVec.toNat_ofNat]
          omega
        rw [littleEndian, h1, h2, List.cons_append]

/-- Too few bytes for a field. -/
theorem takeField_short (k : Nat) (bs : List Byte) (h : bs.length < k) : takeField k bs = none := by
  induction k generalizing bs with
  | zero => omega
  | succ k ih =>
    cases bs with
    | nil => rfl
    | cons b bs => rw [takeField, ih bs (by simpa using h)]

/-- An IDX_WIDTH-bit operand fits its bytes. -/
theorem fits_lt (P : Params) (v : Nat) (h : P.fits v = true) : v < 256 ^ P.fieldBytes := by
  have h1 : v < 2 ^ P.idxWidth := by simpa [Params.fits] using h
  have h2 : 2 ^ P.idxWidth ≤ 2 ^ (8 * P.fieldBytes) :=
    Nat.pow_le_pow_right (by decide) (by unfold Params.fieldBytes; omega)
  rw [show (256 : Nat) = 2 ^ 8 from rfl, ← Nat.pow_mul]
  omega

@[simp] theorem field_length (P : Params) (v : Nat) : (field P v).length = P.fieldBytes := littleEndian_length _ _

/-- A fitting operand reads back. -/
theorem takeField_field (P : Params) (v : Nat) (rest : List Byte) (h : P.fits v = true) :
    takeField P.fieldBytes (field P v ++ rest) = some (v, rest) := by
  rw [field, takeField_littleEndian, Nat.mod_eq_of_lt (fits_lt P v h)]

/-! ### The index list (R84) -/

@[simp] theorem fields_length (P : Params) (is : List Nat) :
    (is.flatMap (field P)).length = P.fieldBytes * is.length := by
  induction is with
  | nil => rfl
  | cons i is ih => rw [List.flatMap_cons, List.length_append, ih, field_length, List.length_cons, Nat.mul_succ, Nat.add_comm]

/-- The index fields read back. -/
theorem takeIndices_fields (P : Params) (is : List Nat) (rest : List Byte) (h : ∀ i ∈ is, P.fits i = true) :
    takeIndices P is.length (is.flatMap (field P) ++ rest) = some (is, rest) := by
  induction is with
  | nil => rfl
  | cons i is ih =>
    rw [List.length_cons, takeIndices, List.flatMap_cons, List.append_assoc, takeField_field P i _ (h i (by simp))]
    simp only [ih fun j hj => h j (by simp [hj])]

/-- What the index reader reads is what the encoder writes. -/
theorem takeIndices_eq_some {P : Params} {n : Nat} {bs : List Byte} {is : List Nat} {rest : List Byte}
    (h : takeIndices P n bs = some (is, rest)) : bs = is.flatMap (field P) ++ rest ∧ is.length = n := by
  induction n generalizing bs is with
  | zero =>
    simp only [takeIndices, Option.some.injEq, Prod.mk.injEq] at h
    obtain ⟨rfl, rfl⟩ := h
    exact ⟨rfl, rfl⟩
  | succ n ih =>
    rw [takeIndices] at h
    split at h
    · cases h
    · rename_i i bs' hf
      split at h
      · cases h
      · rename_i is' rest' hr
        simp only [Option.some.injEq, Prod.mk.injEq] at h
        obtain ⟨rfl, rfl⟩ := h
        obtain ⟨rfl, rfl⟩ := ih hr
        obtain ⟨rfl, -⟩ := takeField_eq_some hf
        exact ⟨by rw [List.flatMap_cons, List.append_assoc, field], rfl⟩

/-! ### The operand check -/

theorem checkOperands_ok (P : Params) (i : Instr) (rest : List Byte) (h : i.wellFormedWith P = true) :
    checkOperands P i rest = .command i rest := if_pos h

theorem checkOperands_command {P : Params} {i j : Instr} {rest rest' : List Byte}
    (h : checkOperands P i rest = .command j rest') : i.wellFormedWith P = true ∧ i = j ∧ rest = rest' := by
  rw [checkOperands] at h
  split at h
  · cases h; exact ⟨by assumption, rfl, rfl⟩
  · cases h

/-- A command that decodes is well-formed: its operands fit IDX_WIDTH. -/
theorem decodeWith_wellFormed {P : Params} {bs : List Byte} {i : Instr} {rest : List Byte}
    (h : decodeWith P bs = .command i rest) : i.wellFormedWith P = true := by
  cases bs with
  | nil => cases h
  | cons op bs =>
    rw [decodeWith] at h
    unfold decodeOpcode at h
    split at h
    · unfold decodeInit at h
      split at h
      · split at h
        · obtain ⟨hw, rfl, -⟩ := checkOperands_command h; exact hw
        · cases h
      · cases h
    · unfold decodePix at h
      split at h
      · obtain ⟨hw, rfl, -⟩ := checkOperands_command h; exact hw
      · cases h
    · unfold decodeMulti at h
      split at h
      · split at h
        · obtain ⟨hw, rfl, -⟩ := checkOperands_command h; exact hw
        · cases h
      · cases h
    all_goals cases h <;> rfl

/-! ### Flags -/

/-- The flags byte reads back (R82). -/
theorem flagsByte_bits (sp ap : Bool) :
    (flagsByte sp ap).extractLsb' 2 6 = 0#6 ∧ (flagsByte sp ap).getLsbD 0 = sp ∧ (flagsByte sp ap).getLsbD 1 = ap := by
  revert sp ap; decide

/-- A byte whose reserved bits are 0 is the flags byte of its two flags. -/
theorem flagsByte_of_bits (f : Byte) (h : f.extractLsb' 2 6 = 0#6) : flagsByte (f.getLsbD 0) (f.getLsbD 1) = f := by
  revert f; decide +kernel

end Sys2Proof
end

