-- ==== Sys2Proof/Laws/Memory.lean ====
section
/-! SUPPORT. The laws of the pixel store's memory: read after write, the canonical form, the range of listed offsets, and that
memories in canonical form with equal reads are equal. -/

namespace Sys2Proof.Machine.Memory

theorem read_cons (b : Nat) (w : Byte) (m : Memory) (a : Nat) :
    read ((b, w) :: m) a = if a = b then w else read m a := rfl

/-- An offset no cell lists reads as blank. -/
theorem read_unlisted (m : Memory) (a : Nat) (h : ∀ c ∈ m, c.1 ≠ a) : read m a = blank := by
  induction m with
  | nil => rfl
  | cons c m ih =>
    obtain ⟨b, w⟩ := c
    have hb : a ≠ b := fun e => h (b, w) (by simp) e.symm
    rw [read_cons, if_neg hb, ih fun d hd => h d (by simp [hd])]

theorem read_insert (m : Memory) (a : Nat) (v : Byte) (k : Nat) :
    read (insert a v m) k = if k = a then v else read m k := by
  induction m with
  | nil => rfl
  | cons c m ih =>
    obtain ⟨b, w⟩ := c
    unfold insert
    split
    · rfl
    · split
      · rename_i hab
        subst hab
        by_cases h : k = a <;> simp [read_cons, h]
      · rename_i hab
        by_cases h : k = b
        · have : k ≠ a := fun e => hab (e.symm.trans h)
          simp [read_cons, h, Ne.symm hab]
        · simp [read_cons, h, ih]

theorem read_filter (m : Memory) (a k : Nat) :
    read (m.filter fun c => c.1 ≠ a) k = if k = a then blank else read m k := by
  induction m with
  | nil => simp [read]
  | cons c m ih =>
    obtain ⟨b, w⟩ := c
    by_cases hb : b = a
    · subst hb
      by_cases hk : k = b <;> simp_all [read_cons]
    · by_cases hk : k = b
      · subst hk; simp [read_cons, hb]
      · simp only [ne_eq, decide_not] at ih ⊢
        simpa [hb, read_cons, hk] using ih

/-- A read after a write: the value written at that offset, every other byte as before. -/
@[simp] theorem read_write (m : Memory) (a : Nat) (v : Byte) (k : Nat) :
    read (write m a v) k = if k = a then v else read m k := by
  unfold write
  split
  · rename_i h; rw [read_filter, h]
  · exact read_insert m a v k

theorem mem_insert (m : Memory) (a : Nat) (v : Byte) (c : Host.Cell) (h : c ∈ insert a v m) : c = (a, v) ∨ c ∈ m := by
  induction m with
  | nil => simpa [insert] using h
  | cons d m ih =>
    obtain ⟨b, w⟩ := d
    unfold insert at h
    split at h
    · simpa using h
    · split at h
      · simp only [List.mem_cons] at h ⊢; tauto
      · simp only [List.mem_cons] at h ⊢
        rcases h with h | h
        · exact .inr (.inl h)
        · rcases ih h with h | h
          · exact .inl h
          · exact .inr (.inr h)

theorem insert_sorted (m : Memory) (a : Nat) (v : Byte) (h : m.Pairwise fun c d => c.1 < d.1) :
    (insert a v m).Pairwise fun c d => c.1 < d.1 := by
  induction m with
  | nil => simp [insert]
  | cons c m ih =>
    obtain ⟨b, w⟩ := c
    rw [List.pairwise_cons] at h
    unfold insert
    split
    · rename_i hab
      refine List.pairwise_cons.2 ⟨fun d hd => ?_, List.pairwise_cons.2 h⟩
      rcases List.mem_cons.1 hd with rfl | hd
      · exact hab
      · exact Nat.lt_trans hab (h.1 d hd)
    · split
      · rename_i hab
        subst hab
        exact List.pairwise_cons.2 h
      · rename_i hlt hne
        refine List.pairwise_cons.2 ⟨fun d hd => ?_, ih h.2⟩
        rcases mem_insert m a v d hd with rfl | hd
        · exact Nat.lt_of_le_of_ne (Nat.le_of_not_lt hlt) (Ne.symm hne)
        · exact h.1 d hd

/-- A write keeps the canonical form. -/
theorem write_wf (m : Memory) (a : Nat) (v : Byte) (h : wf m) : wf (write m a v) := by
  unfold write
  split
  · exact ⟨h.1.filter _, fun c hc => h.2 c (List.mem_of_mem_filter hc)⟩
  · rename_i hv
    refine ⟨insert_sorted m a v h.1, fun c hc => ?_⟩
    rcases mem_insert m a v c hc with rfl | hc
    · exact hv
    · exact h.2 c hc

/-- A write lists no offset but its own. -/
theorem write_range (m : Memory) (a : Nat) (v : Byte) (k : Nat) (ha : a < k) (h : ∀ c ∈ m, c.1 < k) :
    ∀ c ∈ write m a v, c.1 < k := by
  unfold write
  split
  · exact fun c hc => h c (List.mem_of_mem_filter hc)
  · intro c hc
    rcases mem_insert m a v c hc with rfl | hc
    · exact ha
    · exact h c hc

theorem wf_nil : wf [] := ⟨List.Pairwise.nil, by simp⟩

/-- In canonical form, a listed offset is one that does not read as blank. -/
theorem wf_cons {b : Nat} {w : Byte} {m : Memory} (h : wf ((b, w) :: m)) :
    w ≠ blank ∧ wf m ∧ (∀ k, k ≤ b → read m k = blank) := by
  obtain ⟨hs, hn⟩ := h
  rw [List.pairwise_cons] at hs
  refine ⟨hn (b, w) (by simp), ⟨hs.2, fun c hc => hn c (by simp [hc])⟩, fun k hk => ?_⟩
  exact read_unlisted m k fun c hc => by have := hs.1 c hc; omega

/-- Memories in canonical form that read alike are equal, so that equal stores are equal data. -/
theorem ext {m m' : Memory} (h : wf m) (h' : wf m') (he : ∀ a, read m a = read m' a) : m = m' := by
  induction m generalizing m' with
  | nil =>
    cases m' with
    | nil => rfl
    | cons c m' =>
      obtain ⟨b, w⟩ := c
      have := he b
      simp only [read_cons, if_true] at this
      exact absurd this.symm (wf_cons h').1
  | cons c m ih =>
    obtain ⟨b, w⟩ := c
    obtain ⟨hw, hm, hlow⟩ := wf_cons h
    cases m' with
    | nil =>
      have := he b
      simp only [read_cons, if_true] at this
      exact absurd this hw
    | cons c' m' =>
      obtain ⟨b', w'⟩ := c'
      obtain ⟨hw', hm', hlow'⟩ := wf_cons h'
      have hb : b = b' := by
        rcases Nat.lt_trichotomy b b' with hlt | heq | hgt
        · have := he b
          rw [read_cons, if_pos rfl, read_cons, if_neg (Nat.ne_of_lt hlt), hlow' b (Nat.le_of_lt hlt)] at this
          exact absurd this hw
        · exact heq
        · have := he b'
          rw [read_cons, if_neg (Nat.ne_of_lt hgt), hlow b' (Nat.le_of_lt hgt), read_cons, if_pos rfl] at this
          exact absurd this.symm hw'
      subst hb
      have hww : w = w' := by have := he b; simpa [read_cons] using this
      subst hww
      congr 1
      refine ih hm hm' fun a => ?_
      by_cases ha : a = b
      · subst ha; rw [hlow a (Nat.le_refl a), hlow' a (Nat.le_refl a)]
      · have := he a; simpa [read_cons, ha] using this

end Sys2Proof.Machine.Memory
end

