-- ==== Sys2Proof/Laws/Store.lean ====
section
/-! SUPPORT. What the pixel accessors and the store loops do, said once: in range they succeed, and the store they leave is given
by its reads. -/

namespace Sys2Proof.Machine

open Sys2Proof.Config (Params)

/-! ### Layout arithmetic -/

/-- The channel bytes of an existing pixel lie in the store. -/
theorem channelOffset_lt (P : Params) {n p c : Nat} (hp : p < n) (hc : c < P.channels) :
    channelOffset P p c < P.channels * n := by
  have : P.channels * (p + 1) ≤ P.channels * n := Nat.mul_le_mul_left _ hp
  rw [Nat.mul_succ] at this
  simp only [channelOffset]
  omega

/-- An offset names one channel of one pixel. -/
theorem channelOffset_inj (P : Params) {p q c d : Nat} (hc : c < P.channels) (hd : d < P.channels)
    (h : channelOffset P p c = channelOffset P q d) : p = q ∧ c = d := by
  simp only [channelOffset] at h
  have hpos : 0 < P.channels := by omega
  have h1 := congrArg (· / P.channels) h
  have h2 := congrArg (· % P.channels) h
  simp only [Nat.mul_add_div hpos, Nat.div_eq_of_lt hc, Nat.div_eq_of_lt hd, Nat.mul_add_mod,
    Nat.mod_eq_of_lt hc, Nat.mod_eq_of_lt hd] at h1 h2
  omega

/-- An offset outside a pixel is none of its channels'. -/
theorem channelOffset_ne (P : Params) {i c a : Nat} (hc : c < P.channels)
    (h : a < P.channels * i ∨ P.channels * i + P.channels ≤ a) : a ≠ channelOffset P i c := by
  simp only [channelOffset]
  omega

/-! ### Memories the loops leave -/

/-- The memory after channels 0 to k - 1 of pixel `i` were written. -/
def Memory.writeChannels (P : Params) (m : Memory) (i : Nat) (v : Nat → Byte) : Nat → Memory
  | 0 => m
  | k + 1 => Memory.write (Memory.writeChannels P m i v k) (channelOffset P i k) (v k)

/-- The memory after `PIX(i) <- v`. -/
def Memory.writePixel (P : Params) (m : Memory) (i : Nat) (v : Nat → Byte) : Memory :=
  Memory.writeChannels P m i v P.channels

/-- The memory after `for i in 0..k-1: PIX(i) <- (0, 0, 0)`. -/
def Memory.clearBelow (P : Params) (m : Memory) : Nat → Memory
  | 0 => m
  | k + 1 => Memory.writePixel P (Memory.clearBelow P m k) k dark

/-- The memory after writing the listed pixels that exist. -/
def Memory.writeListed (P : Params) (m : Memory) (count : Nat) (v : Nat → Byte) : List Nat → Memory
  | [] => m
  | i :: is =>
    if i < count then Memory.writeListed P (Memory.writePixel P m i v) count v is
    else Memory.writeListed P m count v is

/-! ### One pixel -/

theorem Memory.read_writeChannels_other (P : Params) (m : Memory) (i : Nat) (v : Nat → Byte) (k a : Nat)
    (h : ∀ c, c < k → a ≠ channelOffset P i c) : Memory.read (Memory.writeChannels P m i v k) a = Memory.read m a := by
  induction k with
  | zero => rfl
  | succ k ih =>
    rw [Memory.writeChannels, Memory.read_write, if_neg (h k (Nat.lt_succ_self k)),
      ih fun c hc => h c (Nat.lt_succ_of_lt hc)]

theorem Memory.read_writeChannels_own (P : Params) (m : Memory) (i : Nat) (v : Nat → Byte) (k c : Nat) (h : c < k) :
    Memory.read (Memory.writeChannels P m i v k) (channelOffset P i c) = v c := by
  induction k with
  | zero => omega
  | succ k ih =>
    rw [Memory.writeChannels, Memory.read_write]
    by_cases hk : c = k
    · rw [hk, if_pos rfl]
    · rw [if_neg (by simp only [channelOffset]; omega), ih (by omega)]

/-- Every offset outside the pixel's bytes reads as before. -/
theorem Memory.read_writePixel_other (P : Params) (m : Memory) (i : Nat) (v : Nat → Byte) (a : Nat)
    (h : a < P.channels * i ∨ P.channels * i + P.channels ≤ a) :
    Memory.read (Memory.writePixel P m i v) a = Memory.read m a :=
  Memory.read_writeChannels_other P m i v P.channels a fun _ hc => channelOffset_ne P hc h

/-- The pixel written reads as the value written; every other pixel as before. -/
theorem Memory.read_writePixel_channel (P : Params) (m : Memory) (i : Nat) (v : Nat → Byte) (p c : Nat)
    (hc : c < P.channels) :
    Memory.read (Memory.writePixel P m i v) (channelOffset P p c) =
      if p = i then v c else Memory.read m (channelOffset P p c) := by
  by_cases h : p = i
  · rw [if_pos h, h]; exact Memory.read_writeChannels_own P m i v P.channels c hc
  · rw [if_neg h]
    exact Memory.read_writeChannels_other P m i v P.channels _ fun d hd he => h (channelOffset_inj P hc hd he).1

theorem Memory.writeChannels_wf (P : Params) (m : Memory) (i : Nat) (v : Nat → Byte) (k : Nat) (h : Memory.wf m) :
    Memory.wf (Memory.writeChannels P m i v k) := by
  induction k with
  | zero => exact h
  | succ k ih => exact Memory.write_wf _ _ _ ih

theorem Memory.writePixel_wf (P : Params) (m : Memory) (i : Nat) (v : Nat → Byte) (h : Memory.wf m) :
    Memory.wf (Memory.writePixel P m i v) := Memory.writeChannels_wf P m i v P.channels h

theorem Memory.writePixel_range (P : Params) (m : Memory) (i : Nat) (v : Nat → Byte) (n : Nat) (hi : i < n)
    (h : ∀ c ∈ m, c.1 < P.channels * n) : ∀ c ∈ Memory.writePixel P m i v, c.1 < P.channels * n := by
  have key : ∀ k, k ≤ P.channels → ∀ c ∈ Memory.writeChannels P m i v k, c.1 < P.channels * n := by
    intro k
    induction k with
    | zero => exact fun _ => h
    | succ k ih => exact fun hk => Memory.write_range _ _ _ _ (channelOffset_lt P hi hk) (ih (by omega))
  exact key P.channels (Nat.le_refl _)

/-- `PIX(i) <- v` succeeds for every existing pixel. -/
theorem Instance.setPix_ok (P : Params) (x : Instance) (i : Nat) (v : Nat → Byte) (h : i < x.n) :
    x.setPix P i v = .ok { x with pstore := Memory.writePixel P x.pstore i v } := by
  have key : ∀ k, k ≤ P.channels →
      x.setChannels P i v k = .ok { x with pstore := Memory.writeChannels P x.pstore i v k } := by
    intro k
    induction k with
    | zero => exact fun _ => rfl
    | succ k ih =>
      intro hk
      rw [Instance.setChannels, ih (by omega)]
      exact if_pos (channelOffset_lt P h hk)
  exact key P.channels (Nat.le_refl _)

/-! ### The clearing loop -/

/-- The clearing loop succeeds over existing pixels. -/
theorem Instance.clearPixels_ok (P : Params) (x : Instance) (k : Nat) (h : k ≤ x.n) :
    x.clearPixels P k = .ok { x with pstore := Memory.clearBelow P x.pstore k } := by
  induction k with
  | zero => rfl
  | succ k ih =>
    rw [Instance.clearPixels, ih (by omega)]
    exact Instance.setPix_ok P _ k dark h

theorem Memory.read_clearBelow (P : Params) (m : Memory) (k a : Nat) :
    Memory.read (Memory.clearBelow P m k) a = if a < P.channels * k then 0#8 else Memory.read m a := by
  induction k with
  | zero => simp [Memory.clearBelow]
  | succ k ih =>
    have hs : P.channels * (k + 1) = P.channels * k + P.channels := Nat.mul_succ ..
    by_cases h : a < P.channels * k ∨ P.channels * k + P.channels ≤ a
    · rw [Memory.clearBelow, Memory.read_writePixel_other P _ _ _ _ h, ih]
      rcases h with h | h
      · rw [if_pos h, if_pos (by omega)]
      · rw [if_neg (by omega), if_neg (by omega)]
    · obtain ⟨c, rfl⟩ : ∃ c, a = channelOffset P k c := ⟨a - P.channels * k, by simp only [channelOffset]; omega⟩
      have hc : c < P.channels := by simp only [channelOffset] at h; omega
      rw [Memory.clearBelow, Memory.read_writePixel_channel P _ _ _ _ _ hc, if_pos rfl,
        if_pos (channelOffset_lt P (Nat.lt_succ_self k) hc)]
      rfl

theorem Memory.clearBelow_wf (P : Params) (m : Memory) (k : Nat) (h : Memory.wf m) :
    Memory.wf (Memory.clearBelow P m k) := by
  induction k with
  | zero => exact h
  | succ k ih => exact Memory.writePixel_wf _ _ _ _ ih

theorem Memory.clearBelow_range (P : Params) (m : Memory) (k n : Nat) (hk : k ≤ n)
    (h : ∀ c ∈ m, c.1 < P.channels * n) : ∀ c ∈ Memory.clearBelow P m k, c.1 < P.channels * n := by
  induction k with
  | zero => exact h
  | succ k ih => exact Memory.writePixel_range _ _ _ _ _ hk (ih (by omega))

/-- A canonical store that lists only its own offsets is empty after the clearing loop. -/
theorem Memory.clearBelow_eq_nil (P : Params) (m : Memory) (n : Nat) (hm : Memory.wf m)
    (h : ∀ c ∈ m, c.1 < P.channels * n) : Memory.clearBelow P m n = [] := by
  refine Memory.ext (Memory.clearBelow_wf P m n hm) Memory.wf_nil fun a => ?_
  rw [Memory.read_clearBelow]
  split
  · rfl
  · rw [Memory.read_unlisted m a fun c hc => by have := h c hc; omega]; rfl

/-! ### The listed pixels -/

theorem Instance.setListed_ok (P : Params) (x : Instance) (v : Nat → Byte) (is : List Nat) :
    x.setListed P v is = .ok { x with pstore := Memory.writeListed P x.pstore x.n v is } := by
  induction is generalizing x with
  | nil => rfl
  | cons i is ih =>
    by_cases h : i < x.n
    · rw [Instance.setListed, if_pos (by simpa [Instance.hasPixel] using h), Instance.setPix_ok P x _ v h,
        Memory.writeListed, if_pos h]
      exact ih _
    · rw [Instance.setListed, if_neg (by simpa [Instance.hasPixel] using h), Memory.writeListed, if_neg h]
      exact ih _

theorem Memory.read_writeListed_channel (P : Params) (m : Memory) (count : Nat) (v : Nat → Byte) (is : List Nat)
    (p c : Nat) (hp : p < count) (hc : c < P.channels) :
    Memory.read (Memory.writeListed P m count v is) (channelOffset P p c) =
      if p ∈ is then v c else Memory.read m (channelOffset P p c) := by
  induction is generalizing m with
  | nil => simp [Memory.writeListed]
  | cons i is ih =>
    unfold Memory.writeListed
    split
    · rw [ih, Memory.read_writePixel_channel P _ _ _ _ _ hc]
      by_cases h1 : p ∈ is <;> by_cases h2 : p = i <;> simp_all
    · rw [ih]
      have : p ≠ i := by omega
      simp [this]

theorem Memory.read_writeListed_outside (P : Params) (m : Memory) (count : Nat) (v : Nat → Byte) (is : List Nat) (a : Nat)
    (ha : P.channels * count ≤ a) : Memory.read (Memory.writeListed P m count v is) a = Memory.read m a := by
  induction is generalizing m with
  | nil => rfl
  | cons i is ih =>
    unfold Memory.writeListed
    split
    · rename_i hi
      have : P.channels * (i + 1) ≤ P.channels * count := Nat.mul_le_mul_left _ hi
      rw [Nat.mul_succ] at this
      rw [ih, Memory.read_writePixel_other _ _ _ _ _ (.inr (by omega))]
    · exact ih m

theorem Memory.writeListed_wf (P : Params) (m : Memory) (count : Nat) (v : Nat → Byte) (is : List Nat)
    (h : Memory.wf m) : Memory.wf (Memory.writeListed P m count v is) := by
  induction is generalizing m with
  | nil => exact h
  | cons i is ih =>
    unfold Memory.writeListed
    split
    · exact ih _ (Memory.writePixel_wf _ _ _ _ h)
    · exact ih _ h

theorem Memory.writeListed_range (P : Params) (m : Memory) (count : Nat) (v : Nat → Byte) (is : List Nat)
    (h : ∀ c ∈ m, c.1 < P.channels * count) :
    ∀ c ∈ Memory.writeListed P m count v is, c.1 < P.channels * count := by
  induction is generalizing m with
  | nil => exact h
  | cons i is ih =>
    unfold Memory.writeListed
    split
    · rename_i hi
      exact ih _ (Memory.writePixel_range _ _ _ _ _ hi h)
    · exact ih _ h

/-! ### Reads and SET_PIXEL -/

/-- `MemRead` succeeds for every channel byte of an existing pixel. -/
theorem Instance.readChannel_ok (P : Params) (x : Instance) (p c : Nat) (h : channelOffset P p c < x.storeBytes P) :
    x.readChannel P p c = .ok (x.ch P p c) := by
  simp [Instance.readChannel, Instance.memRead, h, Instance.ch]

/-- The memory SET_PIXEL writes its pixel into (R113). -/
def setPixelBase (P : Params) (x : Instance) : Memory :=
  if P.setPixelClearsAll then Memory.clearBelow P x.pstore x.n else x.pstore

/-- The store a SET_PIXEL of an existing pixel leaves. -/
theorem setOnePixel_ok (P : Params) (x : Instance) (i : Nat) (v : Nat → Byte) (h : i < x.n) :
    setOnePixel P x i v = .ok { x with pstore := Memory.writePixel P (setPixelBase P x) i v } := by
  unfold setOnePixel setPixelBase
  cases P.setPixelClearsAll
  · simpa using Instance.setPix_ok P x _ v h
  · simp only [if_true]
    rw [Instance.clearPixels_ok P x x.n (Nat.le_refl _)]
    exact Instance.setPix_ok P _ _ v h

end Sys2Proof.Machine
end

