-- ==== Sys2Proof/Laws/Symbols.lean ====
section
/-! SUPPORT. The laws of the symbol map, the expander and the frame assembler: lengths, elements, the inverse. -/

namespace Sys2Proof.Machine

open Sys2Proof.Config (Params)

/-! ### Concatenations of equal blocks -/

theorem length_flatMap_range {α : Type} (f : Nat → List α) (L n : Nat) (hf : ∀ p, (f p).length = L) :
    ((List.range n).flatMap f).length = L * n := by
  induction n with
  | zero => simp
  | succ n ih => rw [List.range_succ, List.flatMap_append, List.length_append, ih]; simp [hf, Nat.mul_succ]

/-- Block `p` of a concatenation of equal blocks. -/
theorem block_flatMap_range {α : Type} (f : Nat → List α) (L n p : Nat) (hf : ∀ p, (f p).length = L) (hp : p < n) :
    (((List.range n).flatMap f).drop (L * p)).take L = f p := by
  induction n with
  | zero => omega
  | succ n ih =>
    rw [List.range_succ, List.flatMap_append]
    have hlen := length_flatMap_range f L n hf
    by_cases h : p < n
    · have hle : L * p + L ≤ L * n := by rw [← Nat.mul_succ]; exact Nat.mul_le_mul_left L h
      rw [List.drop_append_of_le_length (by omega), List.take_append_of_le_length (by simp [hlen]; omega), ih h]
    · have : p = n := by omega
      subst this
      rw [← hlen, List.drop_left]
      simp [hf, List.take_of_length_le]

/-- Element `r` of block `p`. -/
theorem getElem?_flatMap_range {α : Type} (f : Nat → List α) (L n p r : Nat) (hf : ∀ p, (f p).length = L) (hp : p < n)
    (hr : r < L) : ((List.range n).flatMap f)[L * p + r]? = (f p)[r]? := by
  have h := congrArg (fun l => l[r]?) (block_flatMap_range f L n p hf hp)
  simpa [List.getElem?_take, hr, List.getElem?_drop] using h

/-! ### The expander (R144, R145) -/

@[simp] theorem expand_length (P : Params) (v : Byte) : (expand P v).length = P.symbolsPerByte := by simp [expand]

theorem expand_getElem? (P : Params) (v : Byte) (m : Nat) (hm : m < P.symbolsPerByte) :
    (expand P v)[m]? = some (sym P (v.getLsbD (P.symbolsPerByte - 1 - m))) := by simp [expand, hm]

/-- Eight symbols a byte, written out. -/
theorem expand_eight (P : Params) (h : P.symbolsPerByte = 8) (v : Byte) :
    expand P v =
      [sym P (v.getLsbD 7), sym P (v.getLsbD 6), sym P (v.getLsbD 5), sym P (v.getLsbD 4),
       sym P (v.getLsbD 3), sym P (v.getLsbD 2), sym P (v.getLsbD 1), sym P (v.getLsbD 0)] := by
  rw [expand, h]; rfl

theorem sym_eq (P : Params) (bit : Bool) : sym P bit = P.sym1 ∨ sym P bit = P.sym0 := by cases bit <;> simp [sym]

theorem sym_eq_sym1 (P : Params) (h : P.Admissible) (bit : Bool) : sym P bit = P.sym1 ↔ bit = true := by
  cases bit
  · simpa [sym] using Ne.symm h
  · simp [sym]

theorem mem_expand (P : Params) (v : Byte) (b : Byte) (h : b ∈ expand P v) : b = P.sym1 ∨ b = P.sym0 := by
  obtain ⟨m, -, rfl⟩ := List.mem_map.1 h
  exact sym_eq P _

/-- The byte with these bits, most significant first. -/
theorem byte_of_bits (v : Byte) :
    (List.foldl (fun (w : Byte) bit => (w <<< 1) ||| (if bit then 1#8 else 0#8)) 0#8
      [v.getLsbD 7, v.getLsbD 6, v.getLsbD 5, v.getLsbD 4, v.getLsbD 3, v.getLsbD 2, v.getLsbD 1, v.getLsbD 0]) = v := by
  revert v; decide +kernel

/-- R152 on one group: the inverse of the expander. -/
theorem decodeGroup_expand (P : Params) (h : P.Admissible) (h8 : P.symbolsPerByte = 8) (v : Byte) :
    decodeGroup P (expand P v) = v := by
  have key := byte_of_bits v
  simp only [List.foldl_cons, List.foldl_nil] at key
  simp only [decodeGroup, expand_eight P h8, List.foldl_cons, List.foldl_nil, sym_eq_sym1 P h]
  exact key

theorem expand_injective (P : Params) (h : P.Admissible) (h8 : P.symbolsPerByte = 8) (v w : Byte)
    (he : expand P v = expand P w) : v = w := by
  rw [← decodeGroup_expand P h h8 v, he, decodeGroup_expand P h h8 w]

/-! ### The frame assembler (R147 to R150) -/

theorem map_flatten_eq_flatMap {α β : Type} (f : α → List β) (l : List α) : (l.map f).flatten = l.flatMap f :=
  (List.flatMap_def ..).symm

theorem pixSyms_eq (P : Params) (x : Instance) (p : Nat) :
    pixSyms P x p = (List.range P.channels).flatMap fun c => expand P (x.ch P p c) := map_flatten_eq_flatMap _ _

@[simp] theorem pixSyms_length (P : Params) (x : Instance) (p : Nat) : (pixSyms P x p).length = pixelSymbols P := by
  rw [pixSyms_eq, length_flatMap_range _ P.symbolsPerByte _ fun _ => expand_length P _, pixelSymbols, Nat.mul_comm]

@[simp] theorem dataStream_length (P : Params) (x : Instance) : (dataStream P x).length = x.frameBytes P :=
  length_flatMap_range _ (pixelSymbols P) x.n fun p => pixSyms_length P x p

theorem pixSyms_group (P : Params) (x : Instance) (p c : Nat) (hc : c < P.channels) :
    ((pixSyms P x p).drop (P.symbolsPerByte * c)).take P.symbolsPerByte = expand P (x.ch P p c) := by
  rw [pixSyms_eq]
  exact block_flatMap_range (fun c => expand P (x.ch P p c)) P.symbolsPerByte P.channels c (fun _ => expand_length P _) hc

/-- The group of channel `c` of pixel `p` within the data stream (R149). -/
theorem dataStream_group (P : Params) (x : Instance) (p c : Nat) (hp : p < x.n) (hc : c < P.channels) :
    ((dataStream P x).drop (pixelSymbols P * p + P.symbolsPerByte * c)).take P.symbolsPerByte =
      expand P (x.ch P p c) := by
  have hblock := block_flatMap_range (pixSyms P x) (pixelSymbols P) x.n p (fun p => pixSyms_length P x p) hp
  have hle : P.symbolsPerByte * c + P.symbolsPerByte ≤ pixelSymbols P := by
    rw [pixelSymbols, ← Nat.mul_succ, Nat.mul_comm P.channels]; exact Nat.mul_le_mul_left _ hc
  rw [← pixSyms_group P x p c hc, ← hblock, List.drop_take, List.take_take, List.drop_drop]
  congr 1
  omega

theorem dataStream_getElem? (P : Params) (x : Instance) (p c m : Nat) (hp : p < x.n) (hc : c < P.channels)
    (hm : m < P.symbolsPerByte) :
    (dataStream P x)[pixelSymbols P * p + P.symbolsPerByte * c + m]? =
      some (sym P ((x.ch P p c).getLsbD (P.symbolsPerByte - 1 - m))) := by
  have h := congrArg (fun l => l[m]?) (dataStream_group P x p c hp hc)
  rw [← expand_getElem? P _ m hm]
  simpa [List.getElem?_take, hm, List.getElem?_drop] using h

theorem mem_dataStream (P : Params) (x : Instance) (b : Byte) (h : b ∈ dataStream P x) : b = P.sym1 ∨ b = P.sym0 := by
  simp only [dataStream, List.mem_flatMap, pixSyms_eq] at h
  obtain ⟨p, -, c, -, h⟩ := h
  exact mem_expand P _ b h

theorem decodeChannel_dataStream (P : Params) (h : P.Admissible) (h8 : P.symbolsPerByte = 8) (x : Instance) (p c : Nat)
    (hp : p < x.n) (hc : c < P.channels) : decodeChannel P (dataStream P x) p c = x.ch P p c := by
  rw [decodeChannel, dataStream_group P x p c hp hc, decodeGroup_expand P h h8]

/-! ### The call lists (R171, R176) -/

@[simp] theorem pixelGroups_length (P : Params) (x : Instance) (p : Nat) : (pixelGroups P x p).length = P.channels := by
  simp [pixelGroups]

@[simp] theorem symbolGroups_length (P : Params) (x : Instance) : (symbolGroups P x).length = x.storeBytes P :=
  length_flatMap_range _ P.channels x.n fun p => pixelGroups_length P x p

@[simp] theorem resetCalls_length (P : Params) : (resetCalls P).length = P.resetBytes := by simp [resetCalls]

@[simp] theorem syncCalls_length (P : Params) (x : Instance) :
    (syncCalls P x).length = x.storeBytes P + P.resetBytes := by simp [syncCalls]

@[simp] theorem asyncCalls_length (P : Params) (x : Instance) : (asyncCalls P x).length = 1 + P.resetBytes := by
  simp [asyncCalls]; omega

/-- Call 3p + c of SHOW_SYNC (R171). -/
theorem syncCalls_data (P : Params) (x : Instance) (p c : Nat) (hp : p < x.n) (hc : c < P.channels) :
    (syncCalls P x)[channelOffset P p c]? = some (expand P (x.ch P p c)) := by
  have hlt : P.channels * p + c < x.storeBytes P := channelOffset_lt P hp hc
  rw [channelOffset, syncCalls, List.getElem?_append_left (by rw [symbolGroups_length]; exact hlt)]
  rw [symbolGroups, getElem?_flatMap_range _ P.channels x.n p c (fun p => pixelGroups_length P x p) hp hc]
  simp [pixelGroups, hc]

/-- Call 3N + j of SHOW_SYNC (R171). -/
theorem syncCalls_reset (P : Params) (x : Instance) (j : Nat) (hj : j < P.resetBytes) :
    (syncCalls P x)[x.storeBytes P + j]? = some [P.resetByte] := by
  rw [syncCalls, List.getElem?_append_right (by rw [symbolGroups_length]; omega), symbolGroups_length]
  simp [resetCalls, hj]

/-- Call 1 + j of SHOW_ASYNC (R176). -/
theorem asyncCalls_reset (P : Params) (x : Instance) (j : Nat) (hj : j < P.resetBytes) :
    (asyncCalls P x)[1 + j]? = some [P.resetByte] := by
  rw [asyncCalls, Nat.add_comm, List.getElem?_cons_succ]
  simp [resetCalls, hj]

theorem symbolGroups_flatten (P : Params) (x : Instance) : (symbolGroups P x).flatten = dataStream P x := by
  unfold symbolGroups dataStream
  induction List.range x.n with
  | nil => rfl
  | cons p ps ih => simp [List.flatMap_cons, ih, pixSyms]

theorem resetCalls_flatten (P : Params) : (resetCalls P).flatten = resetPeriod P := by
  unfold resetCalls resetPeriod
  induction P.resetBytes with
  | zero => rfl
  | succ n ih => simp [List.replicate_succ, ih]

/-- R174: SHOW_SYNC's calls carry the data stream and then the reset period. -/
theorem syncCalls_flatten (P : Params) (x : Instance) : (syncCalls P x).flatten = frame P x := by
  simp [syncCalls, frame, symbolGroups_flatten, resetCalls_flatten]

/-- R176: SHOW_ASYNC's calls carry the same bytes. -/
theorem asyncCalls_flatten (P : Params) (x : Instance) : (asyncCalls P x).flatten = frame P x := by
  simp [asyncCalls, frame, resetCalls_flatten]

@[simp] theorem traceBytes_entries (port : Port) (a : Answer) (calls : List (List Byte)) :
    traceBytes (entries port a calls) = calls.flatten := by
  induction calls with
  | nil => rfl
  | cons c cs ih => simpa [traceBytes, entries] using ih

@[simp] theorem traceBytes_append (es fs : List Entry) : traceBytes (es ++ fs) = traceBytes es ++ traceBytes fs := by
  simp [traceBytes]

end Sys2Proof.Machine
end

