-- ==== Sys2Proof/Laws/Sequencer.lean ====
section
/-! SUPPORT. Where the shows wait: call `k` of a show, its bytes and its sequencer position (R28, R171, R176). -/

namespace Sys2Proof.Machine

open Sys2Proof.Config (Params)

/-- The calls of a show on a port. -/
def callList (P : Params) (x : Instance) : Port → List (List Byte)
  | .sync => syncCalls P x
  | .async => asyncCalls P x

/-- The bytes of call `k`. -/
def callAt (P : Params) (x : Instance) (port : Port) (k : Nat) : List Byte := (callList P x port).getD k []

/-- The sequencer position at which call `k` waits. -/
def waitPos (P : Params) (x : Instance) : Port → Nat → SeqPos
  | .sync, k =>
    if k < x.storeBytes P then groupEnd (k / P.channels) (k % P.channels) else .reset (k - x.storeBytes P)
  | .async, 0 => groupEnd (x.n - 1) (P.channels - 1)
  | .async, k + 1 => .reset k

/-- Every data call of SHOW_SYNC belongs to one pixel and channel. -/
theorem exists_channel (P : Params) (n k : Nat) (h : k < P.channels * n) :
    ∃ p c, p < n ∧ c < P.channels ∧ k = channelOffset P p c := by
  have hpos : 0 < P.channels := Nat.pos_of_ne_zero fun h0 => by rw [h0, Nat.zero_mul] at h; omega
  exact ⟨k / P.channels, k % P.channels, Nat.div_lt_of_lt_mul h, Nat.mod_lt _ hpos, (Nat.div_add_mod k _).symm⟩

theorem waitPos_sync_data (P : Params) (x : Instance) (p c : Nat) (hp : p < x.n) (hc : c < P.channels) :
    waitPos P x .sync (channelOffset P p c) = groupEnd p c := by
  have hlt : channelOffset P p c < x.storeBytes P := channelOffset_lt P hp hc
  rw [waitPos, if_pos hlt, channelOffset, Nat.mul_add_div (by omega), Nat.div_eq_of_lt hc, Nat.mul_add_mod,
    Nat.mod_eq_of_lt hc, Nat.add_zero]

theorem waitPos_sync_reset (P : Params) (x : Instance) (j : Nat) :
    waitPos P x .sync (x.storeBytes P + j) = .reset j := by
  rw [waitPos, if_neg (by omega)]; congr 1; omega

theorem callAt_sync_data (P : Params) (x : Instance) (p c : Nat) (hp : p < x.n) (hc : c < P.channels) :
    callAt P x .sync (channelOffset P p c) = expand P (x.ch P p c) := by
  simp [callAt, callList, List.getD_eq_getElem?_getD, syncCalls_data P x p c hp hc]

theorem callAt_sync_reset (P : Params) (x : Instance) (j : Nat) (h : j < P.resetBytes) :
    callAt P x .sync (x.storeBytes P + j) = [P.resetByte] := by
  simp [callAt, callList, List.getD_eq_getElem?_getD, syncCalls_reset P x j h]

theorem callAt_async_data (P : Params) (x : Instance) : callAt P x .async 0 = dataStream P x := rfl

theorem callAt_async_reset (P : Params) (x : Instance) (j : Nat) (h : j < P.resetBytes) :
    callAt P x .async (j + 1) = [P.resetByte] := by
  rw [Nat.add_comm]
  simp [callAt, callList, List.getD_eq_getElem?_getD, asyncCalls_reset P x j h]

/-- Call `k` is the next entry after the first `k`. -/
theorem entries_take_succ (P : Params) (x : Instance) (port : Port) (a : Answer) (k : Nat)
    (h : k < (callList P x port).length) :
    entries port a ((callList P x port).take (k + 1)) =
      entries port a ((callList P x port).take k) ++ [⟨port, callAt P x port k, a⟩] := by
  rw [List.take_add_one, callAt, List.getD_eq_getElem?_getD, List.getElem?_eq_getElem h]
  simp only [entries, List.map_append, Option.toList_some, List.map_cons, List.map_nil, Option.getD_some]

end Sys2Proof.Machine
end

