-- ==== Sys2Proof/Laws/State.lean ====
section
/-! SUPPORT. One lemma per field per update of State, true by rfl, so that no later proof unfolds a record update; and what the
views and the entry guard of a command say. -/

namespace Sys2Proof.Machine

/-! ### `endCommand` -/

@[simp] theorem State.endCommand_inst (s : State) (c : Option Cause) : (s.endCommand c).inst = s.inst := rfl
@[simp] theorem State.endCommand_run (s : State) (c : Option Cause) : (s.endCommand c).run = none := rfl
@[simp] theorem State.endCommand_status (s : State) (c : Option Cause) : (s.endCommand c).status = some (statusOf c) := rfl
@[simp] theorem State.endCommand_cause (s : State) (c : Option Cause) : (s.endCommand c).cause = c := rfl
@[simp] theorem State.endCommand_fault (s : State) (c : Option Cause) : (s.endCommand c).fault = s.fault := rfl
@[simp] theorem State.endCommand_trace (s : State) (c : Option Cause) : (s.endCommand c).trace = s.trace := rfl
@[simp] theorem State.endCommand_commands (s : State) (c : Option Cause) : (s.endCommand c).commands = s.commands := rfl
@[simp] theorem State.endCommand_portEvents (s : State) (c : Option Cause) : (s.endCommand c).portEvents = s.portEvents := rfl
@[simp] theorem State.endCommand_allocDraws (s : State) (c : Option Cause) : (s.endCommand c).allocDraws = s.allocDraws := rfl
@[simp] theorem State.endCommand_allocCount (s : State) (c : Option Cause) : (s.endCommand c).allocCount = s.allocCount := rfl

/-! ### `complete` -/

@[simp] theorem State.complete_inst (s : State) : (s.complete).inst = s.inst := rfl
@[simp] theorem State.complete_run (s : State) : (s.complete).run = none := rfl
@[simp] theorem State.complete_status (s : State) : (s.complete).status = some .ok := rfl
@[simp] theorem State.complete_cause (s : State) : (s.complete).cause = none := rfl
@[simp] theorem State.complete_fault (s : State) : (s.complete).fault = s.fault := rfl
@[simp] theorem State.complete_trace (s : State) : (s.complete).trace = s.trace := rfl
@[simp] theorem State.complete_commands (s : State) : (s.complete).commands = s.commands := rfl
@[simp] theorem State.complete_portEvents (s : State) : (s.complete).portEvents = s.portEvents := rfl
@[simp] theorem State.complete_allocDraws (s : State) : (s.complete).allocDraws = s.allocDraws := rfl
@[simp] theorem State.complete_allocCount (s : State) : (s.complete).allocCount = s.allocCount := rfl

/-! ### `raise` -/

@[simp] theorem State.raise_inst (s : State) (c : Cause) : (s.raise c).inst = s.inst := rfl
@[simp] theorem State.raise_run (s : State) (c : Cause) : (s.raise c).run = none := rfl
@[simp] theorem State.raise_status (s : State) (c : Cause) : (s.raise c).status = some .err := rfl
@[simp] theorem State.raise_cause (s : State) (c : Cause) : (s.raise c).cause = some c := rfl
@[simp] theorem State.raise_fault (s : State) (c : Cause) : (s.raise c).fault = s.fault := rfl
@[simp] theorem State.raise_trace (s : State) (c : Cause) : (s.raise c).trace = s.trace := rfl
@[simp] theorem State.raise_commands (s : State) (c : Cause) : (s.raise c).commands = s.commands := rfl
@[simp] theorem State.raise_portEvents (s : State) (c : Cause) : (s.raise c).portEvents = s.portEvents := rfl
@[simp] theorem State.raise_allocDraws (s : State) (c : Cause) : (s.raise c).allocDraws = s.allocDraws := rfl
@[simp] theorem State.raise_allocCount (s : State) (c : Cause) : (s.raise c).allocCount = s.allocCount := rfl

/-! ### `concurrentAccess` -/

@[simp] theorem State.concurrentAccess_inst (s : State) : (s.concurrentAccess).inst = s.inst := rfl
@[simp] theorem State.concurrentAccess_run (s : State) : (s.concurrentAccess).run = s.run := rfl
@[simp] theorem State.concurrentAccess_status (s : State) : (s.concurrentAccess).status = s.status := rfl
@[simp] theorem State.concurrentAccess_cause (s : State) : (s.concurrentAccess).cause = s.cause := rfl
@[simp] theorem State.concurrentAccess_fault (s : State) : (s.concurrentAccess).fault = .concurrentAccess := rfl
@[simp] theorem State.concurrentAccess_trace (s : State) : (s.concurrentAccess).trace = s.trace := rfl
@[simp] theorem State.concurrentAccess_commands (s : State) : (s.concurrentAccess).commands = s.commands := rfl
@[simp] theorem State.concurrentAccess_portEvents (s : State) : (s.concurrentAccess).portEvents = s.portEvents := rfl
@[simp] theorem State.concurrentAccess_allocDraws (s : State) : (s.concurrentAccess).allocDraws = s.allocDraws := rfl
@[simp] theorem State.concurrentAccess_allocCount (s : State) : (s.concurrentAccess).allocCount = s.allocCount := rfl

/-! ### `transmit` -/

@[simp] theorem State.transmit_inst (s : State) (p : Port) (bs : List Byte) : (s.transmit p bs).inst = s.inst := rfl
@[simp] theorem State.transmit_run (s : State) (p : Port) (bs : List Byte) : (s.transmit p bs).run = s.run := rfl
@[simp] theorem State.transmit_status (s : State) (p : Port) (bs : List Byte) : (s.transmit p bs).status = s.status := rfl
@[simp] theorem State.transmit_cause (s : State) (p : Port) (bs : List Byte) : (s.transmit p bs).cause = s.cause := rfl
@[simp] theorem State.transmit_fault (s : State) (p : Port) (bs : List Byte) : (s.transmit p bs).fault = s.fault := rfl
@[simp] theorem State.transmit_trace (s : State) (p : Port) (bs : List Byte) : (s.transmit p bs).trace = s.trace ++ [⟨p, bs, .pending⟩] := rfl
@[simp] theorem State.transmit_commands (s : State) (p : Port) (bs : List Byte) : (s.transmit p bs).commands = s.commands := rfl
@[simp] theorem State.transmit_portEvents (s : State) (p : Port) (bs : List Byte) : (s.transmit p bs).portEvents = s.portEvents := rfl
@[simp] theorem State.transmit_allocDraws (s : State) (p : Port) (bs : List Byte) : (s.transmit p bs).allocDraws = s.allocDraws := rfl
@[simp] theorem State.transmit_allocCount (s : State) (p : Port) (bs : List Byte) : (s.transmit p bs).allocCount = s.allocCount := rfl

/-! ### `answerCall` -/

@[simp] theorem State.answerCall_inst (s : State) (a : Answer) : (s.answerCall a).inst = s.inst := rfl
@[simp] theorem State.answerCall_run (s : State) (a : Answer) : (s.answerCall a).run = s.run := rfl
@[simp] theorem State.answerCall_status (s : State) (a : Answer) : (s.answerCall a).status = s.status := rfl
@[simp] theorem State.answerCall_cause (s : State) (a : Answer) : (s.answerCall a).cause = s.cause := rfl
@[simp] theorem State.answerCall_fault (s : State) (a : Answer) : (s.answerCall a).fault = s.fault := rfl
@[simp] theorem State.answerCall_trace (s : State) (a : Answer) : (s.answerCall a).trace = answerLast a s.trace := rfl
@[simp] theorem State.answerCall_commands (s : State) (a : Answer) : (s.answerCall a).commands = s.commands := rfl
@[simp] theorem State.answerCall_portEvents (s : State) (a : Answer) : (s.answerCall a).portEvents = s.portEvents := rfl
@[simp] theorem State.answerCall_allocDraws (s : State) (a : Answer) : (s.answerCall a).allocDraws = s.allocDraws := rfl
@[simp] theorem State.answerCall_allocCount (s : State) (a : Answer) : (s.answerCall a).allocCount = s.allocCount := rfl

/-! ### `alloc` -/

@[simp] theorem State.alloc_inst (s : State) (n : Nat) : (s.alloc n).2.inst = s.inst := by
  unfold State.alloc; split <;> rfl
@[simp] theorem State.alloc_run (s : State) (n : Nat) : (s.alloc n).2.run = s.run := by
  unfold State.alloc; split <;> rfl
@[simp] theorem State.alloc_status (s : State) (n : Nat) : (s.alloc n).2.status = s.status := by
  unfold State.alloc; split <;> rfl
@[simp] theorem State.alloc_cause (s : State) (n : Nat) : (s.alloc n).2.cause = s.cause := by
  unfold State.alloc; split <;> rfl
@[simp] theorem State.alloc_fault (s : State) (n : Nat) : (s.alloc n).2.fault = s.fault := by
  unfold State.alloc; split <;> rfl
@[simp] theorem State.alloc_trace (s : State) (n : Nat) : (s.alloc n).2.trace = s.trace := by
  unfold State.alloc; split <;> rfl
@[simp] theorem State.alloc_commands (s : State) (n : Nat) : (s.alloc n).2.commands = s.commands := by
  unfold State.alloc; split <;> rfl
@[simp] theorem State.alloc_portEvents (s : State) (n : Nat) : (s.alloc n).2.portEvents = s.portEvents := by
  unfold State.alloc; split <;> rfl

/-- A scripted answer is the script's head (R30). -/
theorem State.alloc_cons (s : State) (n : Nat) (a : Bool) (as : List Bool) (h : s.allocDraws = a :: as) :
    s.alloc n = (a, { s with allocDraws := as }) := by
  unfold State.alloc; rw [h]

/-! ### Views -/

@[simp] theorem statusOf_none : statusOf none = .ok := rfl
@[simp] theorem statusOf_some (c : Cause) : statusOf (some c) = .err := rfl

@[simp] theorem State.busy_eq_false (s : State) : s.busy = false ↔ s.run = none := by
  simp [State.busy, Option.isSome_eq_false_iff]

@[simp] theorem State.busy_eq_true (s : State) : s.busy = true ↔ ∃ run, s.run = some run := by
  simp [State.busy, Option.isSome_iff_exists]

@[simp] theorem State.instValid_eq_false (s : State) : s.instValid = false ↔ s.inst = none := by
  simp [State.instValid, Option.isSome_eq_false_iff]

@[simp] theorem State.instValid_eq_true (s : State) : s.instValid = true ↔ ∃ x, s.inst = some x := by
  simp [State.instValid, Option.isSome_iff_exists]

/-! ### Sequencing -/

@[simp] theorem andThen_next (s : State) (k : State → Outcome) : andThen (.next s) k = k s := rfl
@[simp] theorem andThen_fault (f : Fault) (k : State → Outcome) : andThen (.fault f) k = .fault f := rfl
@[simp] theorem andThen_refused (r : Refusal) (k : State → Outcome) : andThen (.refused r) k = .refused r := rfl

/-- A next state after `andThen` comes through a next state. -/
theorem andThen_eq_next {o : Outcome} {k : State → Outcome} {t : State} (h : andThen o k = .next t) :
    ∃ s, o = .next s ∧ k s = .next t := by
  cases o with
  | next s => exact ⟨s, rfl, h⟩
  | fault f => cases h
  | refused r => cases h

/-! ### The entry guard of a command (R211) -/

/-- At an idle state a command executes. -/
theorem accept_idle (s : State) (body : Outcome) (hf : s.fault = .none) (hr : s.run = none) : accept s body = body := by
  simp [accept, hf, State.busy, hr]

/-- A command presented while BUSY = 1 sets FAULT and does nothing else. -/
theorem accept_busy (s : State) (body : Outcome) (hf : s.fault = .none) (hb : s.busy = true) :
    accept s body = .next s.concurrentAccess := by
  simp [accept, hf, hb]

/-- Once FAULT is set no command has a step. -/
theorem accept_dead (s : State) (body : Outcome) (hf : s.fault = .concurrentAccess) :
    accept s body = .fault .concurrentAccess := by
  simp [accept, hf]

/-- Everything the entry guard can do. -/
theorem accept_cases (s : State) (body : Outcome) :
    (s.fault = .concurrentAccess ∧ accept s body = .fault .concurrentAccess) ∨
    (s.fault = .none ∧ s.busy = true ∧ accept s body = .next s.concurrentAccess) ∨
    (s.fault = .none ∧ s.run = none ∧ accept s body = body) := by
  cases hf : s.fault with
  | concurrentAccess => exact .inl ⟨rfl, accept_dead s body hf⟩
  | none =>
    cases hr : s.run with
    | none => exact .inr (.inr ⟨rfl, rfl, accept_idle s body hf hr⟩)
    | some run =>
      have hb : s.busy = true := by simp [State.busy, hr]
      exact .inr (.inl ⟨rfl, hb, accept_busy s body hf hb⟩)

/-- With an instance, the NO_INSTANCE check passes. -/
theorem withInstance_some (s : State) (body : Instance → Outcome) (x : Instance) (h : s.inst = some x) :
    withInstance s body = body x := by
  simp [withInstance, h]

/-- Without one, the command ends with NO_INSTANCE. -/
theorem withInstance_none (s : State) (body : Instance → Outcome) (h : s.inst = none) :
    withInstance s body = .next (s.raise .noInstance) := by
  simp [withInstance, h]

/-! ### The answer of the outstanding call (R34) -/

@[simp] theorem answerLast_append (a : Answer) (es : List Entry) (e : Entry) :
    answerLast a (es ++ [e]) = es ++ [{ e with answer := a }] := by
  induction es with
  | nil => rfl
  | cons f es ih =>
    cases es with
    | nil => rfl
    | cons g es => simpa [answerLast] using ih

end Sys2Proof.Machine
end

