-- ==== Sys2Proof/Laws/Show.lean ====
section
/-! SUPPORT. What a show does, said once: at the wait of call `k` an OK leads to the wait of call `k + 1` or to the end, a FAIL to
the error exit; so a run of OKs leads `m` calls on. -/

namespace Sys2Proof.Machine

open Sys2Proof.Config (Params)

/-- The show record at the wait of call `k` (R28, R31). -/
def runAt (P : Params) (x : Instance) (port : Port) (k : Nat) : ShowRun :=
  let run : ShowRun := { port := port, pos := waitPos P x port k, scratch := none, abuf := none }
  { run with scratch := scratchAt P x run, abuf := abufAt P x run }

/-- The state that waits for the answer to call `k` of a show begun at `s`: the calls before it were answered OK. -/
def waitState (P : Params) (x : Instance) (port : Port) (s : State) (k : Nat) : State :=
  { s with
    run := some (runAt P x port k)
    trace := s.trace ++ entries port .ok ((callList P x port).take k) ++ [⟨port, callAt P x port k, .pending⟩] }

/-- The state after a show begun at `s` has had every call answered OK. -/
def shownState (P : Params) (x : Instance) (port : Port) (s : State) : State :=
  ({ s with trace := s.trace ++ entries port .ok (callList P x port) }).complete

/-- The state after a show begun at `s` had calls 0 to `k - 1` answered OK and call `k` answered FAIL (R173, R178). -/
def failedState (P : Params) (x : Instance) (port : Port) (s : State) (k : Nat) : State :=
  State.raise
    { s with
      trace := s.trace ++ entries port .ok ((callList P x port).take k) ++ [⟨port, callAt P x port k, .fail⟩] }
    .transportFail

@[simp] theorem waitState_inst (P : Params) (x : Instance) (port : Port) (s : State) (k : Nat) :
    (waitState P x port s k).inst = s.inst := rfl

@[simp] theorem waitState_busy (P : Params) (x : Instance) (port : Port) (s : State) (k : Nat) :
    (waitState P x port s k).busy = true := rfl

@[simp] theorem shownState_busy (P : Params) (x : Instance) (port : Port) (s : State) :
    (shownState P x port s).busy = false := rfl

/-- Where SEQ goes when the call at a data position of SHOW_SYNC was answered OK. -/
theorem advance_groupEnd (P : Params) (n p c : Nat) :
    (groupEnd p c).advance P n =
      if c + 1 < P.channels then some (groupStart P p (c + 1))
      else if p + 1 < n then some (groupStart P (p + 1) 0)
      else firstReset P := rfl

/-- Issuing a call of SHOW_SYNC at a data position. -/
theorem issueGroup_ok (P : Params) (x : Instance) (run : ShowRun) (p c : Nat) (s : State) (hp : p < x.n)
    (hc : c < P.channels) :
    issueGroup P x run p c s =
      .next (({ s with run := some { run with pos := groupEnd p c, scratch := some (expand P (x.ch P p c)) } }).transmit
        run.port (expand P (x.ch P p c))) := by
  rw [issueGroup, Instance.readChannel_ok P x p c (channelOffset_lt P hp hc)]

/-- The trace after the outstanding call was answered. -/
theorem waitState_answer (P : Params) (x : Instance) (port : Port) (s : State) (k : Nat) (a : Answer) :
    (waitState P x port s k).answerCall a =
      { s with
        run := some (runAt P x port k)
        trace := s.trace ++ entries port .ok ((callList P x port).take k) ++ [⟨port, callAt P x port k, a⟩] } := by
  simp only [State.answerCall, waitState, answerLast_append]

theorem runAt_sync_data (P : Params) (x : Instance) (p c : Nat) (hp : p < x.n) (hc : c < P.channels) :
    runAt P x .sync (channelOffset P p c) =
      { port := .sync, pos := groupEnd p c, scratch := some (expand P (x.ch P p c)), abuf := none } := by
  simp [runAt, waitPos_sync_data P x p c hp hc, scratchAt, abufAt, groupEnd]

theorem runAt_sync_reset (P : Params) (x : Instance) (j : Nat) :
    runAt P x .sync (x.storeBytes P + j) =
      { port := .sync, pos := .reset j, scratch := if 0 < x.storeBytes P then some (lastGroup P x) else none,
        abuf := none } := by
  simp [runAt, waitPos_sync_reset P x j, scratchAt, abufAt]

theorem runAt_async (P : Params) (x : Instance) (k : Nat) :
    runAt P x .async k =
      { port := .async, pos := waitPos P x .async k, scratch := none, abuf := some (dataStream P x) } := by
  simp [runAt, scratchAt, abufAt]

/-- The state that has issued call `k` of a show. -/
def issuedState (P : Params) (x : Instance) (port : Port) (s : State) (k : Nat) : State :=
  State.transmit { s with run := some (runAt P x port k) } port (callAt P x port k)

/-- Issuing call `channelOffset p c` of SHOW_SYNC, from any record of that show. -/
theorem issueAt_group (P : Params) (x : Instance) (run : ShowRun) (p c : Nat) (s : State) (hp : p < x.n)
    (hc : c < P.channels) (hport : run.port = .sync) (habuf : run.abuf = none) :
    issueAt P x run s (some (groupStart P p c)) = .next (issuedState P x .sync s (channelOffset P p c)) := by
  simp only [groupStart, issueAt, issueGroup_ok P x run p c s hp hc, issuedState, runAt_sync_data P x p c hp hc,
    callAt_sync_data P x p c hp hc, hport, habuf]

/-- An OK at the wait of call `k`: call `k + 1` is issued, or the show ends. -/
theorem callAnsweredOk_runAt (P : Params) (x : Instance) (port : Port) (s : State) (k : Nat)
    (hr : s.run = some (runAt P x port k)) (hi : s.inst = some x) (hk : k < (callList P x port).length) :
    callAnsweredOk P s =
      .next (if k + 1 < (callList P x port).length then issuedState P x port (s.answerCall .ok) (k + 1)
        else (s.answerCall .ok).complete) := by
  have hstart : callAnsweredOk P s =
      issueAt P x (runAt P x port k) (s.answerCall .ok) ((waitPos P x port k).advance P x.n) := by
    rw [callAnsweredOk]; simp only [hr, hi]; rfl
  rw [hstart]
  generalize s.answerCall .ok = u
  cases port with
  | sync =>
    have hlen : (callList P x .sync).length = x.storeBytes P + P.resetBytes := syncCalls_length P x
    rw [hlen] at hk ⊢
    by_cases hd : k < x.storeBytes P
    · obtain ⟨p, c, hp, hc, rfl⟩ := exists_channel P x.n k hd
      rw [waitPos_sync_data P x p c hp hc, runAt_sync_data P x p c hp hc, advance_groupEnd]
      by_cases hc1 : c + 1 < P.channels
      · have hlt : channelOffset P p (c + 1) < x.storeBytes P := channelOffset_lt P hp hc1
        have hk' : channelOffset P p c + 1 = channelOffset P p (c + 1) := rfl
        rw [if_pos hc1, issueAt_group P x _ p (c + 1) u hp hc1 rfl rfl, hk', if_pos (by omega)]
      · rw [if_neg hc1]
        have hk' : channelOffset P p c + 1 = P.channels * (p + 1) := by
          rw [Nat.mul_succ]; simp only [channelOffset]; omega
        by_cases hn : p + 1 < x.n
        · have h0 : 0 < P.channels := by omega
          have hlt : channelOffset P (p + 1) 0 < x.storeBytes P := channelOffset_lt P hn h0
          have hk'' : channelOffset P p c + 1 = channelOffset P (p + 1) 0 := hk'
          rw [if_pos hn, issueAt_group P x _ (p + 1) 0 u hn h0 rfl rfl, hk'', if_pos (by omega)]
        · have hp1 : x.n = p + 1 := by omega
          have hstore : channelOffset P p c + 1 = x.storeBytes P + 0 := by rw [hk', Instance.storeBytes, hp1]; rfl
          have hpos : 0 < x.storeBytes P := by omega
          have hlast : lastGroup P x = expand P (x.ch P p c) := by
            rw [lastGroup, hp1, show P.channels - 1 = c by omega]; rfl
          rw [if_neg hn, firstReset]
          by_cases hR : 0 < P.resetBytes
          · rw [if_pos hR, if_pos (by omega), hstore]
            simp only [issueAt, issueReset, issuedState, runAt_sync_reset P x 0, callAt_sync_reset P x 0 hR, hpos,
              if_true, hlast]
          · rw [if_neg hR, if_neg (by omega)]
            rfl
    · obtain ⟨j, rfl⟩ : ∃ j, k = x.storeBytes P + j := ⟨k - x.storeBytes P, by omega⟩
      rw [waitPos_sync_reset, SeqPos.advance]
      by_cases hj : j + 1 < P.resetBytes
      · rw [if_pos hj, if_pos (by omega), Nat.add_assoc]
        simp only [issueAt, issueReset, issuedState, runAt_sync_reset, callAt_sync_reset P x (j + 1) hj]
      · rw [if_neg hj, if_neg (by omega)]
        rfl
  | async =>
    have hlen : (callList P x .async).length = 1 + P.resetBytes := asyncCalls_length P x
    rw [hlen] at hk ⊢
    cases k with
    | zero =>
      rw [runAt_async]
      have hadv : (waitPos P x .async 0).advance P x.n = firstReset P := by
        rw [waitPos, advance_groupEnd, if_neg (by omega), if_neg (by omega)]
      rw [hadv, firstReset]
      by_cases hR : 0 < P.resetBytes
      · rw [if_pos hR, if_pos (by omega)]
        simp only [issueAt, issueReset, issuedState, runAt_async, callAt_async_reset P x 0 hR, waitPos]
      · rw [if_neg hR, if_neg (by omega)]
        rfl
    | succ j =>
      rw [runAt_async, waitPos, SeqPos.advance]
      by_cases hj : j + 1 < P.resetBytes
      · rw [if_pos hj, if_pos (by omega)]
        simp only [issueAt, issueReset, issuedState, runAt_async, callAt_async_reset P x (j + 1) hj, waitPos]
      · rw [if_neg hj, if_neg (by omega)]
        rfl

/-- The same, for a show whose earlier calls are known. -/
theorem callAnsweredOk_waitState (P : Params) (x : Instance) (port : Port) (s : State) (k : Nat)
    (hi : s.inst = some x) (hk : k < (callList P x port).length) :
    callAnsweredOk P (waitState P x port s k) =
      .next (if k + 1 < (callList P x port).length then waitState P x port s (k + 1) else shownState P x port s) := by
  rw [callAnsweredOk_runAt P x port (waitState P x port s k) k rfl hi hk, waitState_answer, List.append_assoc, ← entries_take_succ P x port .ok k hk]
  split
  · rfl
  · rw [List.take_of_length_le (by omega)]; rfl

/-- A run of OKs that does not end the show leads that many calls on. -/
theorem runShow_ok (P : Params) (x : Instance) (port : Port) (s : State) (hi : s.inst = some x) (m k : Nat)
    (es : List PortEvent) (h : k + m < (callList P x port).length) :
    runShow P (List.replicate m .ok ++ es) (waitState P x port s k) = runShow P es (waitState P x port s (k + m)) := by
  induction m generalizing k with
  | zero => rfl
  | succ m ih =>
    rw [List.replicate_succ, List.cons_append, runShow, callAnsweredOk_waitState P x port s k hi (by omega),
      if_pos (by omega), andThen_next, if_pos (waitState_busy ..), ih (k + 1) (by omega)]
    congr 2; omega

/-- The last OK ends the show. -/
theorem runShow_last_ok (P : Params) (x : Instance) (port : Port) (s : State) (hi : s.inst = some x) (k : Nat)
    (es : List PortEvent) (h : k + 1 = (callList P x port).length) :
    runShow P (.ok :: es) (waitState P x port s k) = .next { shownState P x port s with portEvents := es } := by
  rw [runShow, callAnsweredOk_waitState P x port s k hi (by omega), if_neg (by omega), andThen_next,
    if_neg (by simp)]

/-- OKs for every call end the show with OK. -/
theorem runShow_all_ok (P : Params) (x : Instance) (port : Port) (s : State) (hi : s.inst = some x)
    (es : List PortEvent) (h : 0 < (callList P x port).length) :
    runShow P (List.replicate (callList P x port).length .ok ++ es) (waitState P x port s 0) =
      .next { shownState P x port s with portEvents := es } := by
  obtain ⟨m, hm⟩ : ∃ m, (callList P x port).length = m + 1 := ⟨_, (Nat.succ_pred_eq_of_pos h).symm⟩
  rw [hm, List.replicate_succ', List.append_assoc, runShow_ok P x port s hi m 0 _ (by omega), Nat.zero_add]
  exact runShow_last_ok P x port s hi m es (by omega)

/-- OKs and then a FAIL at call `k`: the error exit. -/
theorem runShow_fail (P : Params) (x : Instance) (port : Port) (s : State) (hi : s.inst = some x) (k : Nat)
    (es : List PortEvent) (h : k < (callList P x port).length) :
    runShow P (List.replicate k .ok ++ .fail :: es) (waitState P x port s 0) =
      .next (failedState P x port { s with portEvents := es } k) := by
  rw [runShow_ok P x port s hi k 0 _ (by omega), Nat.zero_add]
  simp only [runShow, callAnsweredFail, State.answerCall, waitState, answerLast_append, failedState, State.raise,
    State.endCommand]

/-- OKs for the calls before call `k`, and no answer to it: the show waits. -/
theorem runShow_waits (P : Params) (x : Instance) (port : Port) (s : State) (hi : s.inst = some x) (k : Nat)
    (h : k < (callList P x port).length) :
    runShow P (List.replicate k .ok) (waitState P x port s 0) =
      .next { waitState P x port s k with portEvents := [] } := by
  have := runShow_ok P x port s hi k 0 [] (by omega)
  rw [List.append_nil, Nat.zero_add] at this
  rw [this, runShow]

/-- The first call of a show is issued onto an unchanged trace. -/
theorem issuedState_zero (P : Params) (x : Instance) (port : Port) (s : State) :
    issuedState P x port s 0 = waitState P x port s 0 := by
  simp [issuedState, waitState, State.transmit, entries]

/-- The first call of SHOW_SYNC, or its end where it has none. -/
theorem issueAt_syncRun (P : Params) (x : Instance) (s : State) :
    issueAt P x (syncRun P) s (firstPos P x.n) =
      .next (if 0 < (callList P x .sync).length then waitState P x .sync s 0 else shownState P x .sync s) := by
  have hlen : (callList P x .sync).length = x.storeBytes P + P.resetBytes := syncCalls_length P x
  have hst : x.storeBytes P = P.channels * x.n := rfl
  rw [firstPos]
  by_cases hn : 0 < P.channels * x.n
  · rw [if_pos hn, if_pos (by omega), issueAt_group P x _ 0 0 s (Nat.pos_of_mul_pos_left hn)
      (Nat.pos_of_mul_pos_right hn) rfl rfl]
    exact congrArg _ (issuedState_zero P x .sync s)
  · rw [if_neg hn, firstReset]
    have hc : x.storeBytes P = 0 := by omega
    by_cases hR : 0 < P.resetBytes
    · rw [if_pos hR, if_pos (by omega), ← issuedState_zero]
      have e1 := runAt_sync_reset P x 0
      have e2 := callAt_sync_reset P x 0 hR
      simp only [hc, Nat.add_zero, Nat.lt_irrefl, if_false] at e1 e2
      simp only [issueAt, issueReset, issuedState, e1, e2, syncRun]
    · rw [if_neg hR, if_neg (by omega)]
      have hnil : callList P x .sync = [] := List.eq_nil_of_length_eq_zero (by omega)
      simp [issueAt, shownState, hnil, entries]

/-- SHOW_SYNC at an idle state whose port is present. -/
theorem execShowSyncWith_idle (P : Params) (s : State) (x : Instance) (hf : s.fault = .none) (hr : s.run = none)
    (hi : s.inst = some x) (hp : x.syncEn = true) (h : 0 < (callList P x .sync).length) :
    execShowSyncWith P s = runShow P s.portEvents (waitState P x .sync s 0) := by
  rw [execShowSyncWith, accept_idle s _ hf hr, withInstance_some s _ x hi, if_neg (by simp [hp]), issueAt_syncRun,
    if_pos h, andThen_next, settle, if_pos (waitState_busy ..)]
  rfl

/-- SHOW_ASYNC at an idle state whose port is present, N >= 1, and storage is had. -/
theorem execShowAsyncWith_idle (P : Params) (s : State) (x : Instance) (hf : s.fault = .none) (hr : s.run = none)
    (hi : s.inst = some x) (hp : x.asyncEn = true) (hn : x.n ≠ 0) (ha : (s.alloc (x.frameBytes P)).1 = true) :
    execShowAsyncWith P s = runShow P s.portEvents (waitState P x .async (s.alloc (x.frameBytes P)).2 0) := by
  rw [execShowAsyncWith, accept_idle s _ hf hr, withInstance_some s _ x hi, if_neg (by simp [hp]), if_neg hn]
  have : (({ (s.alloc (x.frameBytes P)).2 with run := some (asyncRun P x) }).transmit .async (dataStream P x)) =
      waitState P x .async (s.alloc (x.frameBytes P)).2 0 := by
    simp [waitState, State.transmit, runAt_async, waitPos, asyncRun, entries, callAt_async_data]
  simp only [ha, Bool.true_eq_false, if_false, this]
  rw [settle, if_pos (waitState_busy ..)]
  simp [waitState]

/-! ### Everything a show can do -/

/-- The events at the waits are all that `runShow` reads of `portEvents`. -/
theorem runShow_portEvents (P : Params) (es q : List PortEvent) (s : State) :
    runShow P es { s with portEvents := q } = runShow P es s := by
  have hok : ∀ s : State, (∃ f, callAnsweredOk P { s with portEvents := q } = .fault f ∧ callAnsweredOk P s = .fault f) ∨
      ∃ t, callAnsweredOk P { s with portEvents := q } = .next { t with portEvents := q } ∧ callAnsweredOk P s = .next t := by
    rintro ⟨inst, run, status, cause, fault, trace, commands, portEvents, allocDraws, allocCount⟩
    cases run with
    | none => exact .inl ⟨_, rfl, rfl⟩
    | some run =>
      cases inst with
      | none => exact .inl ⟨_, rfl, rfl⟩
      | some x =>
        simp only [callAnsweredOk]
        cases run.pos.advance P x.n with
        | none => exact .inr ⟨_, rfl, rfl⟩
        | some pos =>
          cases pos with
          | reset j => exact .inr ⟨_, rfl, rfl⟩
          | data p c k =>
            simp only [issueAt, issueGroup]
            cases x.readChannel P p c with
            | error f => exact .inl ⟨_, rfl, rfl⟩
            | ok v => exact .inr ⟨_, rfl, rfl⟩
  induction es generalizing s with
  | nil => rfl
  | cons e es ih =>
    cases e with
    | command bytes => rfl
    | fail => rfl
    | ok =>
      rw [runShow, runShow]
      rcases hok s with ⟨f, h1, h2⟩ | ⟨t, h1, h2⟩
      · rw [h1, h2]
      · rw [h1, h2, andThen_next, andThen_next, ih]
        rfl

/-- A show that runs out of answers goes on with the next ones from where it waits. -/
theorem runShow_append (P : Params) (a b : List PortEvent) (s t : State) (ha : ∀ e ∈ a, e = .ok ∨ e = .fail)
    (h : runShow P a s = .next t) (hb : t.busy = true) : runShow P (a ++ b) s = runShow P b t := by
  induction a generalizing s with
  | nil => cases h; exact (runShow_portEvents P b [] s).symm
  | cons e a ih =>
    have ha' : ∀ e ∈ a, e = .ok ∨ e = .fail := fun e he => ha e (List.mem_cons_of_mem _ he)
    rcases ha e (by simp) with rfl | rfl
    · rw [runShow] at h
      obtain ⟨u, hu, h⟩ := andThen_eq_next h
      rw [List.cons_append, runShow, hu, andThen_next]
      split at h
      · rename_i hub
        rw [if_pos hub]; exact ih u ha' h
      · rename_i hub
        cases h; exact absurd hb hub
    · cases h; simp [callAnsweredFail] at hb

/-- Whatever the events, a show that waits at call `k` comes to wait at a later call, fails at one, or ends with every call
answered OK. -/
theorem runShow_cases (P : Params) (x : Instance) (port : Port) (s : State) (hi : s.inst = some x) (es : List PortEvent)
    (k : Nat) (hk : k < (callList P x port).length) :
    (∃ k' es', k' < (callList P x port).length ∧
      runShow P es (waitState P x port s k) = .next { waitState P x port s k' with portEvents := es' }) ∨
    (∃ k' es', k' < (callList P x port).length ∧
      runShow P es (waitState P x port s k) = .next (failedState P x port { s with portEvents := es' } k')) ∨
    (∃ es', runShow P es (waitState P x port s k) = .next { shownState P x port s with portEvents := es' }) := by
  induction es generalizing k with
  | nil => exact .inl ⟨k, [], hk, rfl⟩
  | cons e es ih =>
    cases e with
    | command bytes => exact .inl ⟨k, _, hk, rfl⟩
    | fail =>
      refine .inr (.inl ⟨k, es, hk, ?_⟩)
      simp only [runShow, callAnsweredFail, State.answerCall, waitState, answerLast_append, failedState, State.raise,
        State.endCommand]
    | ok =>
      rw [runShow, callAnsweredOk_waitState P x port s k hi hk]
      by_cases h : k + 1 < (callList P x port).length
      · rw [if_pos h, andThen_next, if_pos (waitState_busy ..)]
        exact ih (k + 1) h
      · rw [if_neg h, andThen_next, if_neg (by simp)]
        exact .inr (.inr ⟨es, rfl⟩)

/-- A show makes a call where there is a reset period. -/
theorem callList_pos (P : Params) (h : 0 < P.resetBytes) (x : Instance) (port : Port) :
    0 < (callList P x port).length := by
  cases port
  · have := syncCalls_length P x
    rw [callList]; omega
  · have := asyncCalls_length P x
    rw [callList]; omega

/-- Everything SHOW_SYNC can do at an idle state. -/
theorem execShowSync_idle_cases (P : Params) (s : State) (hf : s.fault = .none) (hr : s.run = none) :
    (s.inst = none ∧ execShowSyncWith P s = .next (s.raise .noInstance)) ∨
    (∃ x, s.inst = some x ∧ x.syncEn = false ∧ execShowSyncWith P s = .next (s.raise .noPort)) ∨
    (∃ x, s.inst = some x ∧ x.syncEn = true ∧ callList P x .sync = [] ∧ execShowSyncWith P s = .next s.complete) ∨
    (∃ x, s.inst = some x ∧ x.syncEn = true ∧ 0 < (callList P x .sync).length ∧
      execShowSyncWith P s = runShow P s.portEvents (waitState P x .sync s 0)) := by
  cases hi : s.inst with
  | none => exact .inl ⟨rfl, by rw [execShowSyncWith, accept_idle s _ hf hr, withInstance_none s _ hi]⟩
  | some x =>
    cases hp : x.syncEn with
    | false =>
      refine .inr (.inl ⟨x, rfl, hp, ?_⟩)
      rw [execShowSyncWith, accept_idle s _ hf hr, withInstance_some s _ x hi, if_pos hp]
    | true =>
      by_cases h : 0 < (callList P x .sync).length
      · exact .inr (.inr (.inr ⟨x, rfl, hp, h, execShowSyncWith_idle P s x hf hr hi hp h⟩))
      · have hnil : callList P x .sync = [] := List.eq_nil_of_length_eq_zero (by omega)
        refine .inr (.inr (.inl ⟨x, rfl, hp, hnil, ?_⟩))
        rw [execShowSyncWith, accept_idle s _ hf hr, withInstance_some s _ x hi, if_neg (by simp [hp]), issueAt_syncRun,
          if_neg h, andThen_next, settle, if_neg (by simp)]
        simp [shownState, hnil, entries]

/-- Everything SHOW_ASYNC can do at an idle state. -/
theorem execShowAsync_idle_cases (P : Params) (s : State) (hf : s.fault = .none) (hr : s.run = none) :
    (s.inst = none ∧ execShowAsyncWith P s = .next (s.raise .noInstance)) ∨
    (∃ x, s.inst = some x ∧ x.asyncEn = false ∧ execShowAsyncWith P s = .next (s.raise .noPort)) ∨
    (∃ x, s.inst = some x ∧ x.asyncEn = true ∧ x.n = 0 ∧ execShowAsyncWith P s = .next s.complete) ∨
    (∃ x, s.inst = some x ∧ x.asyncEn = true ∧ x.n ≠ 0 ∧ (s.alloc (x.frameBytes P)).1 = false ∧
      execShowAsyncWith P s = .next ((s.alloc (x.frameBytes P)).2.raise .allocFail)) ∨
    (∃ x, s.inst = some x ∧ x.asyncEn = true ∧ x.n ≠ 0 ∧ (s.alloc (x.frameBytes P)).1 = true ∧
      execShowAsyncWith P s = runShow P s.portEvents (waitState P x .async (s.alloc (x.frameBytes P)).2 0)) := by
  cases hi : s.inst with
  | none => exact .inl ⟨rfl, by rw [execShowAsyncWith, accept_idle s _ hf hr, withInstance_none s _ hi]⟩
  | some x =>
    cases hp : x.asyncEn with
    | false =>
      refine .inr (.inl ⟨x, rfl, hp, ?_⟩)
      rw [execShowAsyncWith, accept_idle s _ hf hr, withInstance_some s _ x hi, if_pos hp]
    | true =>
      by_cases hn : x.n = 0
      · refine .inr (.inr (.inl ⟨x, rfl, hp, hn, ?_⟩))
        rw [execShowAsyncWith, accept_idle s _ hf hr, withInstance_some s _ x hi, if_neg (by simp [hp]), if_pos hn]
      · cases ha : (s.alloc (x.frameBytes P)).1 with
        | false =>
          refine .inr (.inr (.inr (.inl ⟨x, rfl, hp, hn, ha, ?_⟩)))
          rw [execShowAsyncWith, accept_idle s _ hf hr, withInstance_some s _ x hi, if_neg (by simp [hp]), if_neg hn]
          simp only [ha, if_true]
        | true =>
          exact .inr (.inr (.inr (.inr ⟨x, rfl, hp, hn, ha, execShowAsyncWith_idle P s x hf hr hi hp hn ha⟩)))

end Sys2Proof.Machine
end

