-- ==== Sys2Proof/Laws/Invariant.lean ====
section
/-! SUPPORT. The legal shows in progress are exactly those at the wait of one of their calls, and every call is of one of R60's
kinds. -/

namespace Sys2Proof.Machine

open Sys2Proof.Config (Params)

/-- A legal show in progress waits at one of its calls. -/
theorem wf_runAt (P : Params) (x : Instance) (run : ShowRun) (h : run.Wf P x) :
    ∃ k, k < (callList P x run.port).length ∧ run = runAt P x run.port k ∧ (run.port = .async → 0 < x.n) := by
  obtain ⟨-, hpos, hs, ha⟩ := h
  obtain ⟨port, pos, scratch, abuf⟩ := run
  cases port with
  | sync =>
    have hlen : (callList P x .sync).length = x.storeBytes P + P.resetBytes := syncCalls_length P x
    cases pos with
    | data p c k =>
      simp only [posLegal, Bool.and_eq_true, decide_eq_true_eq] at hpos
      obtain ⟨⟨hp, hc⟩, rfl⟩ := hpos
      have hlt : channelOffset P p c < x.storeBytes P := channelOffset_lt P hp hc
      refine ⟨channelOffset P p c, by rw [hlen]; omega, ?_, by simp⟩
      simp only [runAt_sync_data P x p c hp hc]
      simp only at hs ha
      rw [hs, ha]; rfl
    | reset j =>
      simp only [posLegal, decide_eq_true_eq] at hpos
      refine ⟨x.storeBytes P + j, by rw [hlen]; omega, ?_, by simp⟩
      simp only [runAt_sync_reset]
      simp only at hs ha
      rw [hs, ha]; rfl
  | async =>
    have hlen : (callList P x .async).length = 1 + P.resetBytes := asyncCalls_length P x
    cases pos with
    | data p c k =>
      simp only [posLegal, Bool.and_eq_true, decide_eq_true_eq] at hpos
      obtain ⟨⟨hp, hc⟩, rfl⟩ := hpos
      refine ⟨0, by rw [hlen]; omega, ?_, fun _ => by omega⟩
      simp only [runAt_async, waitPos]
      simp only at hs ha
      rw [hs, ha, show x.n - 1 = p by omega, ← hc]; rfl
    | reset j =>
      simp only [posLegal, Bool.and_eq_true, decide_eq_true_eq] at hpos
      refine ⟨j + 1, by rw [hlen]; omega, ?_, fun _ => hpos.2⟩
      simp only [runAt_async, waitPos]
      simp only at hs ha
      rw [hs, ha]; rfl

/-- The wait of a call is a legal show in progress. -/
theorem runAt_wf (P : Params) (x : Instance) (port : Port) (k : Nat) (hp : x.portPresent port = true)
    (hk : k < (callList P x port).length) (ha : port = .async → 0 < x.n) : (runAt P x port k).Wf P x := by
  refine ⟨hp, ?_, ?_, ?_⟩
  · cases port with
    | sync =>
      have hlen : (callList P x .sync).length = x.storeBytes P + P.resetBytes := syncCalls_length P x
      by_cases hd : k < x.storeBytes P
      · obtain ⟨p, c, hp, hc, rfl⟩ := exists_channel P x.n k hd
        simp [runAt_sync_data P x p c hp hc, posLegal, groupEnd, hp, hc]
      · obtain ⟨j, rfl⟩ : ∃ j, k = x.storeBytes P + j := ⟨k - x.storeBytes P, by omega⟩
        have : j < P.resetBytes := by omega
        simp [runAt_sync_reset, posLegal, this]
    | async =>
      have hlen : (callList P x .async).length = 1 + P.resetBytes := asyncCalls_length P x
      have := ha rfl
      cases k with
      | zero =>
        have hx : x.n - 1 + 1 = x.n := by omega
        simp [runAt_async, waitPos, posLegal, groupEnd, hx]
      | succ j =>
        have hj : j < P.resetBytes := by omega
        simp [runAt_async, waitPos, posLegal, hj, this]
  · cases port <;> simp [runAt, scratchAt]
  · cases port <;> simp [runAt, abufAt]

/-- The bytes outstanding at the wait of call `k` are call `k`'s. -/
theorem callBytes_runAt (P : Params) (x : Instance) (port : Port) (k : Nat) (hk : k < (callList P x port).length) :
    callBytes P x (runAt P x port k) = callAt P x port k := by
  cases port with
  | sync =>
    have hlen : (callList P x .sync).length = x.storeBytes P + P.resetBytes := syncCalls_length P x
    by_cases hd : k < x.storeBytes P
    · obtain ⟨p, c, hp, hc, rfl⟩ := exists_channel P x.n k hd
      simp [runAt_sync_data P x p c hp hc, callAt_sync_data P x p c hp hc, callBytes, groupEnd]
    · obtain ⟨j, rfl⟩ : ∃ j, k = x.storeBytes P + j := ⟨k - x.storeBytes P, by omega⟩
      have : j < P.resetBytes := by omega
      simp [runAt_sync_reset, callAt_sync_reset P x j this, callBytes]
  | async =>
    have hlen : (callList P x .async).length = 1 + P.resetBytes := asyncCalls_length P x
    cases k with
    | zero => simp [runAt_async, waitPos, callBytes, groupEnd, callAt_async_data]
    | succ j =>
      have hj : j < P.resetBytes := by omega
      simp [runAt_async, waitPos, callBytes, callAt_async_reset P x j hj]

/-- Every call is of one of R60's kinds, whatever its answer. -/
theorem callAt_entry_wf (P : Params) (x : Instance) (port : Port) (k : Nat) (a : Answer)
    (hk : k < (callList P x port).length) (ha : port = .async → 0 < x.n) :
    Entry.Wf P ⟨port, callAt P x port k, a⟩ := by
  cases port with
  | sync =>
    have hlen : (callList P x .sync).length = x.storeBytes P + P.resetBytes := syncCalls_length P x
    by_cases hd : k < x.storeBytes P
    · obtain ⟨p, c, hp, hc, rfl⟩ := exists_channel P x.n k hd
      rw [callAt_sync_data P x p c hp hc]
      exact .inr ⟨mem_expand P _, by simp [symbolLength]⟩
    · obtain ⟨j, rfl⟩ : ∃ j, k = x.storeBytes P + j := ⟨k - x.storeBytes P, by omega⟩
      rw [callAt_sync_reset P x j (by omega)]
      exact .inl rfl
  | async =>
    have hlen : (callList P x .async).length = 1 + P.resetBytes := asyncCalls_length P x
    cases k with
    | zero =>
      refine .inr ⟨mem_dataStream P x, ?_⟩
      simp only [callAt_async_data, dataStream_length, symbolLength, Bool.and_eq_true, Bool.or_eq_true, decide_eq_true_eq]
      refine ⟨?_, Nat.mul_mod_right _ _⟩
      rcases Nat.eq_zero_or_pos (pixelSymbols P) with h | h
      · exact .inr h
      · exact .inl (Nat.mul_pos h (ha rfl))
    | succ j =>
      rw [callAt_async_reset P x j (by omega)]
      exact .inl rfl

end Sys2Proof.Machine
end

