-- ==== Sys2Proof/Laws/Commands.lean ====
section
/-! SUPPORT. Everything a command and a resumption can do, said once: the commands that do not transmit at an idle state, and
what a show keeps from any state at all. -/

namespace Sys2Proof.Machine

open Sys2Proof.Config (Params)

/-! ### The commands that do not transmit -/

/-- What a command that does not transmit can do to the instance: an error leaves it; a legal one stays legal; while it
exists its configuration stays. -/
structure InstanceChange (P : Params) (old new : Option Instance) (c : Option Cause) : Prop where
  kept : c ≠ none → new = old
  legal : (∀ x ∈ old, x.Wf P) → ∀ y ∈ new, y.Wf P
  config : ∀ x ∈ old, ∀ y ∈ new, y.n = x.n ∧ y.syncEn = x.syncEn ∧ y.asyncEn = x.asyncEn

theorem InstanceChange.refl (P : Params) (old : Option Instance) (c : Option Cause) : InstanceChange P old old c where
  kept := fun _ => rfl
  legal := id
  config := fun x hx y hy => by
    obtain rfl : x = y := Option.some.inj (hx.symm.trans hy)
    exact ⟨rfl, rfl, rfl⟩

/-- A written store: same configuration, still legal. -/
theorem InstanceChange.write (P : Params) (x : Instance) (m : Memory)
    (h : x.Wf P → Memory.wf m ∧ ∀ c ∈ m, c.1 < P.channels * x.n) :
    InstanceChange P (some x) (some { x with pstore := m }) none where
  kept := fun h => absurd rfl h
  legal := fun hw y hy => by
    cases hy
    have hx := hw x rfl
    exact ⟨hx.1, hx.2.1, h hx⟩
  config := fun x' hx y hy => by cases hx; cases hy; exact ⟨rfl, rfl, rfl⟩

/-- The state a command that does not transmit leaves at an idle state. -/
def mutated (s : State) (inst : Option Instance) (draws : List Bool) (count : Nat) (c : Option Cause) : State :=
  ({ s with inst := inst, allocDraws := draws, allocCount := count }).endCommand c

theorem mutated_raise (s : State) (c : Cause) :
    ∃ draws count, s.raise c = mutated s s.inst draws count (some c) := ⟨s.allocDraws, s.allocCount, rfl⟩

/-- A draw changes only the script or its counter (R30). -/
theorem State.alloc_cases (s : State) (n : Nat) :
    (∃ a as, s.alloc n = (a, { s with allocDraws := as })) ∨
    ∃ a, s.alloc n = (a, { s with allocCount := s.allocCount + 1 }) := by
  unfold State.alloc
  split
  · exact .inl ⟨_, _, rfl⟩
  · exact .inr ⟨_, rfl⟩

/-- Everything INIT can do at an idle state. -/
theorem execInit_idle_cases (P : Params) (s : State) (n : Nat) (sp ap : Bool) (hf : s.fault = .none)
    (hr : s.run = none) :
    (∃ c draws count, execInitWith P n sp ap s = .next (mutated s s.inst draws count (some c))) ∨
    (s.inst = none ∧ (sp = true ∨ ap = true) ∧
      ∃ draws count, execInitWith P n sp ap s = .next (mutated s (some (freshInstance n sp ap)) draws count none)) := by
  rw [execInitWith, accept_idle s _ hf hr]
  by_cases hv : s.instValid = true
  · rw [if_pos hv]
    exact .inl ⟨_, s.allocDraws, s.allocCount, rfl⟩
  · have hi : s.inst = none := (State.instValid_eq_false s).1 (Bool.eq_false_iff.2 hv)
    rw [if_neg hv]
    by_cases hp : sp = false ∧ ap = false
    · rw [if_pos hp]
      exact .inl ⟨_, s.allocDraws, s.allocCount, rfl⟩
    · have hp' : sp = true ∨ ap = true := by revert hp; cases sp <;> cases ap <;> simp
      rw [if_neg hp]
      by_cases hn : n = 0
      · rw [if_pos hn]
        exact .inr ⟨hi, hp', s.allocDraws, s.allocCount, rfl⟩
      · rw [if_neg hn]
        rcases s.alloc_cases ((freshInstance n sp ap).storeBytes P) with ⟨a, as, h⟩ | ⟨a, h⟩ <;> rw [h] <;> cases a
        · exact .inl ⟨_, _, _, rfl⟩
        · exact .inr ⟨hi, hp', _, _, rfl⟩
        · exact .inl ⟨_, _, _, rfl⟩
        · exact .inr ⟨hi, hp', _, _, rfl⟩

/-- Everything a command that does not transmit can do at an idle state; for the legality of the instance its operands must
fit IDX_WIDTH. -/
theorem execWith_mutator_cases (P : Params) (i : Instr) (s : State) (hi : isShow i = false) (hf : s.fault = .none)
    (hr : s.run = none) :
    ∃ inst draws count c, execWith P i s = .next (mutated s inst draws count c) ∧
      (i.wellFormedWith P = true → InstanceChange P s.inst inst c) ∧ (c ≠ none → inst = s.inst) ∧
      ∀ x ∈ s.inst, ∀ y ∈ inst, y.n = x.n ∧ y.syncEn = x.syncEn ∧ y.asyncEn = x.asyncEn := by
  have same : ∀ {inst c}, InstanceChange P s.inst inst c →
      (i.wellFormedWith P = true → InstanceChange P s.inst inst c) ∧ (c ≠ none → inst = s.inst) ∧
        ∀ x ∈ s.inst, ∀ y ∈ inst, y.n = x.n ∧ y.syncEn = x.syncEn ∧ y.asyncEn = x.asyncEn :=
    fun h => ⟨fun _ => h, h.kept, h.config⟩
  have noInstance : ∀ body, s.inst = none → ∃ draws count,
      accept s (withInstance s body) = .next (mutated s s.inst draws count (some .noInstance)) :=
    fun body hn => ⟨s.allocDraws, s.allocCount, by rw [accept_idle s _ hf hr, withInstance_none s _ hn]; rfl⟩
  cases i with
  | init n sp ap =>
    rcases execInit_idle_cases P s n sp ap hf hr with ⟨c, draws, count, h⟩ | ⟨hn, hp, draws, count, h⟩
    · exact ⟨_, _, _, _, h, same (.refl ..)⟩
    · refine ⟨_, _, _, _, h, fun hw => ⟨fun h => absurd rfl h, fun _ y hy => ?_, fun x hx => ?_⟩,
        fun h => absurd rfl h, fun x hx => ?_⟩
      · cases hy
        exact ⟨show n < _ from (by simpa [Instr.wellFormedWith, Params.fits] using hw), hp, Memory.wf_nil,
          by simp [freshInstance]⟩
      all_goals rw [hn] at hx; cases hx
  | setPixel index r g b =>
    cases hn : s.inst with
    | none => obtain ⟨d, k, h⟩ := noInstance _ hn; exact ⟨_, d, k, _, h, hn ▸ same (.refl ..)⟩
    | some x =>
      rw [execWith, execSetPixelWith, accept_idle s _ hf hr, withInstance_some s _ x hn]
      by_cases h : x.hasPixel index = true
      · have hlt : index < x.n := by simpa [Instance.hasPixel] using h
        rw [if_pos h, setOnePixel_ok P x index _ hlt]
        refine ⟨_, s.allocDraws, s.allocCount, none, rfl, hn ▸ same (hn ▸ .write P x _ fun hw =>
          ⟨Memory.writePixel_wf _ _ _ _ ?_, Memory.writePixel_range _ _ _ _ _ hlt ?_⟩)⟩
        · unfold setPixelBase
          split
          · exact Memory.clearBelow_wf _ _ _ hw.2.2.1
          · exact hw.2.2.1
        · unfold setPixelBase
          split
          · exact Memory.clearBelow_range _ _ _ _ (Nat.le_refl _) hw.2.2.2
          · exact hw.2.2.2
      · rw [if_neg h]
        exact ⟨_, s.allocDraws, s.allocCount, some .indexRange, rfl, hn ▸ same (.refl ..)⟩
  | setMulti indices r g b =>
    cases hn : s.inst with
    | none => obtain ⟨d, k, h⟩ := noInstance _ hn; exact ⟨_, d, k, _, h, hn ▸ same (.refl ..)⟩
    | some x =>
      rw [execWith, execSetMultiWith, accept_idle s _ hf hr, withInstance_some s _ x hn]
      simp only [Instance.clearPixels_ok P x x.n (Nat.le_refl _), Instance.setListed_ok]
      exact ⟨_, s.allocDraws, s.allocCount, none, rfl, hn ▸ same (hn ▸ .write P x _ fun hw =>
        ⟨Memory.writeListed_wf _ _ _ _ _ (Memory.clearBelow_wf _ _ _ hw.2.2.1),
          Memory.writeListed_range _ _ _ _ _ (Memory.clearBelow_range _ _ _ _ (Nat.le_refl _) hw.2.2.2)⟩)⟩
  | clear =>
    cases hn : s.inst with
    | none => obtain ⟨d, k, h⟩ := noInstance _ hn; exact ⟨_, d, k, _, h, hn ▸ same (.refl ..)⟩
    | some x =>
      rw [execWith, execClearWith, accept_idle s _ hf hr, withInstance_some s _ x hn,
        Instance.clearPixels_ok P x x.n (Nat.le_refl _)]
      exact ⟨_, s.allocDraws, s.allocCount, none, rfl, hn ▸ same (hn ▸ .write P x _ fun hw =>
        ⟨Memory.clearBelow_wf _ _ _ hw.2.2.1, Memory.clearBelow_range _ _ _ _ (Nat.le_refl _) hw.2.2.2⟩)⟩
  | deinit =>
    cases hn : s.inst with
    | none => obtain ⟨d, k, h⟩ := noInstance _ hn; exact ⟨_, d, k, _, h, hn ▸ same (.refl ..)⟩
    | some x =>
      rw [execWith, execDeinit, accept_idle s _ hf hr, withInstance_some s _ x hn]
      exact ⟨none, s.allocDraws, s.allocCount, none, rfl,
        hn ▸ same ⟨fun h => absurd rfl h, by simp, by simp⟩⟩
  | showSync => cases hi
  | showAsync => cases hi

/-! ### What a show keeps, from any state -/

/-- What the steps of a show keep: everything but the show record, STATUS and its cause, TRACE and the events. -/
structure ShowKeeps (s t : State) : Prop where
  inst : t.inst = s.inst
  fault : t.fault = s.fault
  commands : t.commands = s.commands
  allocDraws : t.allocDraws = s.allocDraws
  allocCount : t.allocCount = s.allocCount

theorem ShowKeeps.trans {s t u : State} (h : ShowKeeps s t) (h' : ShowKeeps t u) : ShowKeeps s u :=
  ⟨h'.inst.trans h.inst, h'.fault.trans h.fault, h'.commands.trans h.commands, h'.allocDraws.trans h.allocDraws,
    h'.allocCount.trans h.allocCount⟩

/-- Issuing at a position adds at most one entry, and none only where the show ends. -/
theorem issueAt_next (P : Params) (x : Instance) (run : ShowRun) (s t : State) (pos : Option SeqPos)
    (h : issueAt P x run s pos = .next t) :
    ShowKeeps s t ∧ t.portEvents = s.portEvents ∧
      ((t.busy = false ∧ t.trace = s.trace) ∨ ∃ e, t.trace = s.trace ++ [e]) := by
  match pos, h with
  | none, h => cases h; exact ⟨⟨rfl, rfl, rfl, rfl, rfl⟩, rfl, .inl ⟨by simp, rfl⟩⟩
  | some (.reset j), h => cases h; exact ⟨⟨rfl, rfl, rfl, rfl, rfl⟩, rfl, .inr ⟨_, rfl⟩⟩
  | some (.data p c k), h =>
    rw [issueAt, issueGroup] at h
    split at h
    · cases h
    · cases h; exact ⟨⟨rfl, rfl, rfl, rfl, rfl⟩, rfl, .inr ⟨_, rfl⟩⟩

/-- An OK answers the outstanding call and adds at most one entry. -/
theorem callAnsweredOk_next (P : Params) (s t : State) (h : callAnsweredOk P s = .next t) :
    ShowKeeps s t ∧ t.portEvents = s.portEvents ∧
      ((t.busy = false ∧ t.trace = answerLast .ok s.trace) ∨ ∃ e, t.trace = answerLast .ok s.trace ++ [e]) := by
  rw [callAnsweredOk] at h
  split at h
  · exact ⟨⟨(issueAt_next _ _ _ _ _ _ h).1.inst, (issueAt_next _ _ _ _ _ _ h).1.fault,
      (issueAt_next _ _ _ _ _ _ h).1.commands, (issueAt_next _ _ _ _ _ _ h).1.allocDraws,
      (issueAt_next _ _ _ _ _ _ h).1.allocCount⟩, (issueAt_next _ _ _ _ _ _ h).2⟩
  · cases h

/-- Everything a show keeps while it runs through events, how TRACE grows, and that the events left are the last of them. -/
theorem runShow_next (P : Params) (es : List PortEvent) (s t : State) (h : runShow P es s = .next t) :
    ShowKeeps s t ∧ t.portEvents <:+ es ∧
      (t.trace = s.trace ∨ ∃ a new, a ≠ .pending ∧ t.trace = answerLast a s.trace ++ new) := by
  induction es generalizing s with
  | nil => cases h; exact ⟨⟨rfl, rfl, rfl, rfl, rfl⟩, List.suffix_refl _, .inl rfl⟩
  | cons e es ih =>
    cases e with
    | command bytes => cases h; exact ⟨⟨rfl, rfl, rfl, rfl, rfl⟩, List.suffix_refl _, .inl rfl⟩
    | fail =>
      cases h
      exact ⟨⟨rfl, rfl, rfl, rfl, rfl⟩, List.suffix_cons _ _, .inr ⟨.fail, [], by decide, by simp [callAnsweredFail]⟩⟩
    | ok =>
      rw [runShow] at h
      obtain ⟨u, hu, h⟩ := andThen_eq_next h
      obtain ⟨hk, -, htr⟩ := callAnsweredOk_next P s u hu
      split at h
      · rename_i hb
        obtain ⟨hk', hsuf, htr'⟩ := ih u h
        refine ⟨hk.trans hk', hsuf.trans (List.suffix_cons _ _), .inr ?_⟩
        rcases htr with ⟨hb', -⟩ | ⟨e, he⟩
        · rw [hb'] at hb; cases hb
        · rcases htr' with heq | ⟨a, new, ha, heq⟩
          · exact ⟨.ok, [e], by decide, heq.trans he⟩
          · rw [he, answerLast_append] at heq
            exact ⟨.ok, { e with answer := a } :: new, by decide, by rw [heq]; simp⟩
      · cases h
        refine ⟨⟨hk.inst, hk.fault, hk.commands, hk.allocDraws, hk.allocCount⟩, List.suffix_cons _ _, .inr ?_⟩
        rcases htr with ⟨-, he⟩ | ⟨e, he⟩
        · exact ⟨.ok, [], by decide, by simpa using he⟩
        · exact ⟨.ok, [e], by decide, he⟩

/-! ### The machine with its parameters as an argument -/

/-- At this hardware's values the parametric meaning is the meaning. -/
theorem execWith_hw : execWith Config.hw = exec := by
  funext i s
  cases i <;> rfl

theorem stepWith_hw : stepWith Config.hw = step := by
  funext s
  rw [stepWith, execWith_hw]
  rfl

/-! ### A command and a step, from any state -/

/-- Every command begins with the entry guard (R211). -/
theorem execWith_eq_accept (P : Params) (i : Instr) :
    ∃ body : State → Outcome, ∀ s, execWith P i s = accept s (body s) := by
  cases i
  all_goals exact ⟨_, fun _ => rfl⟩

/-- Where a command answers a next state: it sets FAULT while BUSY = 1, or it executes at an idle state. -/
theorem execWith_next_cases (P : Params) (i : Instr) (s t : State) (h : execWith P i s = .next t) :
    (s.fault = .none ∧ s.busy = true ∧ t = s.concurrentAccess) ∨ s.Idle := by
  obtain ⟨body, hb⟩ := execWith_eq_accept P i
  rw [hb] at h
  rcases accept_cases s (body s) with ⟨_, e⟩ | ⟨h1, h2, e⟩ | ⟨h1, h2, e⟩
  · rw [e] at h; cases h
  · rw [e] at h; cases h; exact .inl ⟨h1, h2, rfl⟩
  · exact .inr ⟨h1, h2⟩

/-- Where an illegal command answers a next state (R87, R211). -/
theorem execIllegal_next_cases (s t : State) (h : execIllegal s = .next t) :
    (s.busy = true ∧ t = s.concurrentAccess) ∨ (s.Idle ∧ t = s.raise .illegalCommand) := by
  rw [execIllegal] at h
  rcases accept_cases s (.next (s.raise .illegalCommand)) with ⟨_, e⟩ | ⟨_, h2, e⟩ | ⟨h1, h2, e⟩
  · rw [e] at h; cases h
  · rw [e] at h; cases h; exact .inl ⟨h2, rfl⟩
  · rw [e] at h; cases h; exact .inr ⟨⟨h1, h2⟩, rfl⟩

/-- The state a fetched command finds: the bytes taken from the stream of an idle block, or the event from a waiting show. -/
def Taken (s u : State) : Prop :=
  (s.run = none ∧ ∃ rest, u = { s with commands := rest }) ∨
  (s.busy = true ∧ ∃ bytes es, s.portEvents = .command bytes :: es ∧ u = { s with portEvents := es })

/-- Everything a fetch can answer. -/
theorem fetchWith_cases (P : Params) (s : State) :
    (s.fault = .concurrentAccess ∧ fetchWith P s = .dead) ∨
    (s.fault = .none ∧
      (fetchWith P s = .wait ∨ fetchWith P s = .truncated ∨
        (fetchWith P s = .answered ∧ s.busy = true ∧ ∃ e es, s.portEvents = e :: es ∧ (e = .ok ∨ e = .fail)) ∨
        ∃ u, ((∃ i, fetchWith P s = .command i u ∧ i.wellFormedWith P = true) ∨ fetchWith P s = .illegal u) ∧ Taken s u)) := by
  cases hf : s.fault with
  | concurrentAccess => exact .inl ⟨rfl, by simp [fetchWith, hf]⟩
  | none =>
    refine .inr ⟨rfl, ?_⟩
    cases hr : s.run with
    | none =>
      cases hc : s.commands with
      | nil => exact .inl (by simp [fetchWith, hf, hr, hc])
      | cons b bs =>
        have hfetch : fetchWith P s = fetchBytes P (b :: bs) fun rest => { s with commands := rest } := by
          simp only [fetchWith, hf, hr, hc]
        cases hd : decodeWith P (b :: bs) with
        | truncated => exact .inr (.inl (by simp only [hfetch, fetchBytes, hd]))
        | command i rest =>
          exact .inr (.inr (.inr ⟨_, .inl ⟨i, by simp only [hfetch, fetchBytes, hd], decodeWith_wellFormed hd⟩,
            .inl ⟨hr, rest, rfl⟩⟩))
        | illegal why rest =>
          exact .inr (.inr (.inr ⟨_, .inr (by simp only [hfetch, fetchBytes, hd]), .inl ⟨hr, rest, rfl⟩⟩))
    | some run =>
      have hb : s.busy = true := by simp [State.busy, hr]
      cases hc : s.portEvents with
      | nil => exact .inl (by simp [fetchWith, hf, hr, hc])
      | cons e es =>
        cases e with
        | ok => exact .inr (.inr (.inl ⟨by simp [fetchWith, hf, hr, hc], hb, _, _, rfl, .inl rfl⟩))
        | fail => exact .inr (.inr (.inl ⟨by simp [fetchWith, hf, hr, hc], hb, _, _, rfl, .inr rfl⟩))
        | command bytes =>
          have hfetch : fetchWith P s = fetchBytes P bytes fun _ => { s with portEvents := es } := by
            simp only [fetchWith, hf, hr, hc]
          cases hd : decodeWith P bytes with
          | truncated => exact .inr (.inl (by simp only [hfetch, fetchBytes, hd]))
          | command i rest =>
            exact .inr (.inr (.inr ⟨_, .inl ⟨i, by simp only [hfetch, fetchBytes, hd], decodeWith_wellFormed hd⟩,
              .inr ⟨hb, _, _, hc, rfl⟩⟩))
          | illegal why rest =>
            exact .inr (.inr (.inr ⟨_, .inr (by simp only [hfetch, fetchBytes, hd]), .inr ⟨hb, _, _, hc, rfl⟩⟩))

/-- Everything a step that answers a next state can be. -/
theorem stepWith_next_cases (P : Params) (s t : State) (h : stepWith P s = .next t) :
    s.fault = .none ∧
      (t = s ∨ (s.busy = true ∧ resumeShowWith P s = .next t) ∨
        ∃ u, ((∃ i, execWith P i u = .next t ∧ i.wellFormedWith P = true) ∨ execIllegal u = .next t) ∧ Taken s u) := by
  rcases fetchWith_cases P s with ⟨_, e⟩ | ⟨hf, e | e | ⟨e, hb, _⟩ | ⟨u, ⟨i, e, hw⟩ | e, hu⟩⟩
  · rw [stepWith, e] at h; cases h
  · rw [stepWith, e] at h; cases h; exact ⟨hf, .inl rfl⟩
  · rw [stepWith, e] at h; cases h
  · rw [stepWith, e] at h; exact ⟨hf, .inr (.inl ⟨hb, h⟩)⟩
  · rw [stepWith, e] at h; exact ⟨hf, .inr (.inr ⟨u, .inl ⟨i, h, hw⟩, hu⟩)⟩
  · rw [stepWith, e] at h; exact ⟨hf, .inr (.inr ⟨u, .inr h, hu⟩)⟩

end Sys2Proof.Machine
end

