-- ==== Sys2Proof/Laws/PerInstr.lean ====
section
/-! SUPPORT. Statements about every instruction as syntax, one lemma per constructor. -/

namespace Sys2Proof.Laws.EncodedLength

open Sys2Proof.Config (Params)

/-- R88: the length the decoder computes from a command's first bytes is the length of its encoding, whatever follows, for
every IDX_WIDTH. -/
def Statement (i : Instr) : Prop :=
  ∀ P : Params, i.wellFormedWith P = true →
    ∀ rest, commandLength P (encodeWith P i ++ rest) = (encodeWith P i).length

theorem init (ledCount : Nat) (sp ap : Bool) : Statement (.init ledCount sp ap) := by
  intro P _ rest
  simp [encodeWith, opcode, operandBytes, commandLength]

theorem setPixel (index : Nat) (r g b : Byte) : Statement (.setPixel index r g b) := by
  intro P _ rest
  simp [encodeWith, opcode, operandBytes, commandLength]

theorem setMulti (indices : List Nat) (r g b : Byte) : Statement (.setMulti indices r g b) := by
  intro P h rest
  rw [Instr.wellFormedWith, Bool.and_eq_true] at h
  simp only [encodeWith, opcode, operandBytes, List.cons_append, List.append_assoc, commandLength,
    takeField_field P _ _ h.1]
  simp [Nat.mul_comm]
  omega

theorem clear : Statement .clear := fun _ _ _ => rfl

theorem showSync : Statement .showSync := fun _ _ _ => rfl

theorem showAsync : Statement .showAsync := fun _ _ _ => rfl

theorem deinit : Statement .deinit := fun _ _ _ => rfl

end Sys2Proof.Laws.EncodedLength
end

