-- ==== Sys2Proof/Machine/Assembly.lean ====
section
/-! DEFINITION. The assembly syntax of R89: one command a line, numbers in decimal. It only names commands; nothing in the
machine reads it. -/

namespace Sys2Proof.Machine

/-- A one-bit operand (R89: "sp, ap in 0, 1"). -/
def bitText (b : Bool) : String := if b then "1" else "0"

/-- Operands separated by commas (R89). -/
def commaList : List String → String
  | [] => ""
  | [t] => t
  | t :: u :: ts => t ++ ", " ++ commaList (u :: ts)

/-- A command's line (R89). -/
def assembly : Instr → String
  | .init n sp ap => "INIT " ++ commaList [toString n, bitText sp, bitText ap]
  | .setPixel i r g b =>
    "SET_PIXEL " ++ commaList [toString i, toString r.toNat, toString g.toNat, toString b.toNat]
  | .setMulti is r g b =>
    "SET_MULTI " ++ commaList ["[" ++ commaList (is.map toString) ++ "]",
      toString r.toNat, toString g.toNat, toString b.toNat]
  | .clear => "CLEAR"
  | .showSync => "SHOW_SYNC"
  | .showAsync => "SHOW_ASYNC"
  | .deinit => "DEINIT"

end Sys2Proof.Machine
end

