-- ==== Sys2Proof/Tests/Slice0.lean ====
section
/-! SUPPORT. Tests: expected values from 95_test_vectors.md (the vector is named), from the field tables of 30_encoding.md where a
word is written out; and a witness for the hypotheses of each statement. -/

namespace Sys2Proof.Machine.Tests

open Sys2Proof Sys2Proof.Machine

/-! ### Small states -/

/-- An idle machine with an instance. -/
def idleWith (n : Nat) (sp ap : Bool) (m : Memory) : State := { State.reset with inst := some ⟨n, sp, ap, m⟩ }

/-- The start of M2: N = 3, pixel 1 = (G 20, R 10, B 30). -/
def threePixels : State := idleWith 3 true false [(3, 0x20#8), (4, 0x10#8), (5, 0x30#8)]

/-- PSTORE = 3C A5 00 (E1). -/
def e1Store : Memory := [(0, 0x3C#8), (1, 0xA5#8)]

/-- The start of S1 to S7: N = 1, PSTORE = 3C A5 00. -/
def onePixel (sp ap : Bool) : State := idleWith 1 sp ap e1Store

/-- The groups gG, gR, gB of 95_test_vectors.md 2.8. -/
def gG : List Byte := [0xC0#8, 0xC0#8, 0xF0#8, 0xF0#8, 0xF0#8, 0xF0#8, 0xC0#8, 0xC0#8]
def gR : List Byte := [0xF0#8, 0xC0#8, 0xF0#8, 0xC0#8, 0xC0#8, 0xF0#8, 0xC0#8, 0xF0#8]
def gB : List Byte := [0xC0#8, 0xC0#8, 0xC0#8, 0xC0#8, 0xC0#8, 0xC0#8, 0xC0#8, 0xC0#8]

/-- S18: SHOW_SYNC's call 0 was issued and has no answer. -/
def waiting : State :=
  { onePixel true true with
    run := some { port := .sync, pos := .data 0 0 0, scratch := some gG, abuf := none }
    trace := [⟨.sync, gG, .pending⟩] }

/-- N = 2, every other field as S10: PSTORE = 00 FF 00 00 00 80. -/
def redBlue : Instance := ⟨2, false, true, [(1, 0xFF#8), (5, 0x80#8)]⟩

/-- Another layout: two channels of two symbols each, 8-bit operands, one reset byte. -/
def small : Config.Params := { Config.hw with channels := 2, symbolsPerByte := 2, idxWidth := 8, resetBytes := 1 }

/-- An idle machine of that layout with two pixels. -/
def smallState (m : Memory) : State := idleWith 2 true true m

/-- Two-bit operands, and neither a channel, a symbol nor a reset byte. -/
def zero : Config.Params := { small with channels := 0, symbolsPerByte := 0, idxWidth := 2, resetBytes := 0 }

/-- SHOW_ASYNC at those values has issued its data call, which is empty. -/
def zeroWaiting : State :=
  { smallState [] with
    run := some { port := .async, pos := .data 1 0 0, scratch := none, abuf := some [] }
    trace := [⟨.async, [], .pending⟩] }

/-- Is this outcome the next state `t`? -/
def isNext (o : Outcome) (t : State) : Bool :=
  match o with
  | .next u => decide (u = t)
  | .fault _ => false
  | .refused _ => false

theorem isNext_iff (o : Outcome) (t : State) : isNext o t = true ↔ o = .next t := by
  cases o <;> simp [isNext]

/-! ### WellFormed -/

/-- LEDCOUNT and INDEX are 16-bit fields (R82, R83, R85): 2^16 does not fit. -/
theorem test_wide_operand_is_refused :
    (Instr.init 65536 true true).wellFormed = false ∧ (Instr.setPixel 65536 0#8 0#8 0#8).wellFormed = false := by
  simp [Instr.wellFormed, Instr.wellFormedWith, Config.Params.fits, Config.hw]

/-- Each IDX_m is a 16-bit field (R84, R85), the last one too. -/
theorem test_wide_index_is_refused : (Instr.setMulti [0, 65536] 0#8 0#8 0#8).wellFormed = false := by
  simp [Instr.wellFormed, Instr.wellFormedWith, Config.Params.fits, Config.hw]

/-- COUNT is a 16-bit field (R84, R85): a list of 2^16 indices does not fit. -/
theorem test_long_list_is_refused :
    (Instr.setMulti (List.replicate 65536 0) 0#8 0#8 0#8).wellFormed = false := by
  simp only [Instr.wellFormed, Instr.wellFormedWith, List.length_replicate, Config.Params.fits]
  exact Bool.and_eq_false_iff.2 (.inl (by decide))

theorem test_longest_list_is_accepted :
    (Instr.setMulti (List.replicate 65535 65535) 0#8 0#8 0#8).wellFormed = true := by
  simp only [Instr.wellFormed, Instr.wellFormedWith, List.length_replicate, List.all_replicate, Config.Params.fits,
    Config.hw]; simp

/-! ### Decode -/

/-- F_INIT (R82): 0x01, LEDCOUNT 0xBEEF low byte first, RSV 000000 AP 1 SP 0. -/
theorem test_decode_init : decode [0x01#8, 0xEF#8, 0xBE#8, 0b00000010#8] = .command (.init 0xBEEF false true) [] := by
  decide

/-- F_PIX (R83): 0x02, INDEX 0x8001 low byte first, RV, GV, BV. -/
theorem test_decode_set_pixel :
    decode [0x02#8, 0x01#8, 0x80#8, 0x11#8, 0x22#8, 0x33#8, 0x04#8] =
      .command (.setPixel 0x8001 0x11#8 0x22#8 0x33#8) [0x04#8] := by decide

/-- F_MULTI (R84): 0x03, COUNT 1, index 0x1234 low byte first, RV, GV, BV. -/
theorem test_decode_set_multi :
    decode [0x03#8, 0x01#8, 0x00#8, 0x34#8, 0x12#8, 0xAA#8, 0xBB#8, 0xCC#8] =
      .command (.setMulti [0x1234] 0xAA#8 0xBB#8 0xCC#8) [] := by decide

/-- F_NONE (R86): the four commands of one byte. -/
theorem test_decode_one_byte :
    decode [0x04#8] = .command .clear [] ∧ decode [0x05#8] = .command .showSync [] ∧
      decode [0x06#8] = .command .showAsync [] ∧ decode [0x07#8] = .command .deinit [] := by decide

/-- X2, X3, X4, X5, X11. -/
theorem test_decode_rejects :
    decode [0x00#8] = .illegal (.reservedOpcode 0x00#8) [] ∧ decode [0x08#8] = .illegal (.reservedOpcode 0x08#8) [] ∧
      decode [0xFF#8] = .illegal (.reservedOpcode 0xFF#8) [] ∧
      decode [0x01#8, 0x02#8, 0x00#8, 0x05#8] = .illegal (.reservedBits 0x05#8) [] ∧
      decode [0x02#8, 0x00#8, 0x00#8] = .truncated := by decide

/-- The numbering of spec/opcode_table.json: the second byte is bits 15..8. -/
theorem test_table_words :
    decodeTableWord 32 0x03012C01 = some (.init 300 true true) ∧
      decodeTableWord 48 0x030201010202 = some (.setPixel 258 0x01#8 0x02#8 0x03#8) ∧
      decodeTableWord 24 0x000203 = some (.setMulti [0, 0] 0#8 0#8 0#8) ∧
      decodeTableWord 8 0x07 = some .deinit ∧ decodeTableWord 8 0x08 = none := by decide

/-- R89's syntax. -/
theorem test_assembly :
    assembly (.setMulti [0, 258] 1#8 2#8 3#8) = "SET_MULTI [0, 258], 1, 2, 3" ∧
      assembly (.init 2 true false) = "INIT 2, 1, 0" := ⟨rfl, rfl⟩

/-! ### Symbols, frame, sequencer, timing -/

/-- E1. -/
theorem test_pixel_symbols : pixSyms Config.hw ⟨1, true, true, e1Store⟩ 0 = gG ++ gR ++ gB := by decide

/-- 2.2, rows 0, 1, 8, E, F. -/
theorem test_nibble_table :
    (nibbleTable Config.hw)[0]? = some [0xC0#8, 0xC0#8, 0xC0#8, 0xC0#8] ∧
      (nibbleTable Config.hw)[1]? = some [0xC0#8, 0xC0#8, 0xC0#8, 0xF0#8] ∧
      (nibbleTable Config.hw)[8]? = some [0xF0#8, 0xC0#8, 0xC0#8, 0xC0#8] ∧
      (nibbleTable Config.hw)[14]? = some [0xF0#8, 0xF0#8, 0xF0#8, 0xC0#8] ∧
      (nibbleTable Config.hw)[15]? = some [0xF0#8, 0xF0#8, 0xF0#8, 0xF0#8] := by decide

/-- S10's payload, and 2.9: pixel 1 carries B = 80. -/
theorem test_data_stream :
    dataStream Config.hw redBlue =
      List.replicate 8 0xC0#8 ++ List.replicate 8 0xF0#8 ++ List.replicate 24 0xC0#8 ++ 0xF0#8 :: List.replicate 7 0xC0#8 ∧
      decodeChannel Config.hw (dataStream Config.hw redBlue) 1 2 = 0x80#8 := by decide

/-- R28: the advance out of the last bit of a pixel, and out of the data phase. -/
theorem test_sequencer :
    SeqPos.advance Config.hw 2 (.data 0 0 0) = some (.data 0 1 7) ∧
      SeqPos.advance Config.hw 2 (.data 0 2 0) = some (.data 1 0 7) ∧
      SeqPos.advance Config.hw 2 (.data 1 2 0) = some (.reset 0) ∧
      SeqPos.advance Config.hw 2 (.reset 239) = none := by decide

/-- F6: 1.96635 s. -/
theorem test_frame_duration : frameDurationPs Config.hw 65535 = 1966350000000 := by decide

/-! ### Reset and the step -/

theorem test_reset_inv : State.reset.Inv := by decide

/-- X1 as the first command after reset: R203's NO_INSTANCE. -/
theorem test_first_step :
    step (State.reset.withFetchWord 8 0x05) =
      .next { State.reset with status := some .err, cause := some .noInstance } := rfl

/-- X2: one byte is taken, ERR. -/
theorem test_illegal_step :
    step { State.reset with commands := [0x00#8, 0x04#8] } =
      .next { State.reset with commands := [0x04#8], status := some .err, cause := some .illegalCommand } := rfl

/-! ### The commands -/

/-- M12. -/
theorem test_init :
    exec (.init 2 true false) { State.reset with allocDraws := [true] } =
      .next { idleWith 2 true false [] with status := some .ok } := rfl

/-- M13. -/
theorem test_init_twice :
    exec (.init 5 true true) threePixels =
      .next { threePixels with status := some .err, cause := some .alreadyInit } := rfl

/-- M1, from the store 00x9. -/
theorem test_set_pixel :
    exec (.setPixel 1 0x10#8 0x20#8 0x30#8) (idleWith 3 true false []) =
      .next { threePixels with status := some .ok } := rfl

/-- M3. -/
theorem test_set_pixel_out_of_range :
    exec (.setPixel 3 1#8 1#8 1#8) threePixels =
      .next { threePixels with status := some .err, cause := some .indexRange } := rfl

/-- M6, with pixel 1 lit before. -/
theorem test_set_multi :
    exec (.setMulti [0, 2, 7] 0x01#8 0x02#8 0x03#8) threePixels =
      .next { idleWith 3 true false [(0, 2#8), (1, 1#8), (2, 3#8), (6, 2#8), (7, 1#8), (8, 3#8)] with
        status := some .ok } := rfl

/-- M9. -/
theorem test_set_multi_repeated :
    exec (.setMulti [1, 1, 1] 0xAA#8 0xBB#8 0xCC#8) (idleWith 3 true false []) =
      .next { idleWith 3 true false [(3, 0xBB#8), (4, 0xAA#8), (5, 0xCC#8)] with status := some .ok } := rfl

/-- M10. -/
theorem test_clear :
    exec .clear (idleWith 2 true true [(0, 0x3C#8), (1, 0xA5#8), (3, 0x11#8), (4, 0x22#8), (5, 0x33#8)]) =
      .next { idleWith 2 true true [] with status := some .ok } := rfl

/-- S5: the first reset byte fails. -/
theorem test_show_sync_failure :
    exec .showSync { onePixel true false with portEvents := [.ok, .ok, .ok, .fail] } =
      .next { onePixel true false with
        trace := [⟨.sync, gG, .ok⟩, ⟨.sync, gR, .ok⟩, ⟨.sync, gB, .ok⟩, ⟨.sync, [0x00#8], .fail⟩]
        status := some .err
        cause := some .transportFail } := rfl

/-- S17: CLEAR is presented while call 1 is outstanding; the show waits there, and the next step sets FAULT. -/
theorem test_show_sync_interrupted :
    ∃ t, exec .showSync { onePixel true false with portEvents := [.ok, .command [0x04#8]] } = .next t ∧
      t.trace = [⟨.sync, gG, .ok⟩, ⟨.sync, gR, .pending⟩] ∧ t.status = none ∧
      step t = .next { t with portEvents := [], fault := .concurrentAccess } := ⟨_, rfl, rfl, rfl, rfl⟩

/-- S12: the payload call fails. -/
theorem test_show_async_failure :
    exec .showAsync { onePixel false true with allocDraws := [true], portEvents := [.fail] } =
      .next { onePixel false true with
        trace := [⟨.async, gG ++ gR ++ gB, .fail⟩]
        status := some .err
        cause := some .transportFail } := rfl

/-- S13: reset byte 5 fails. -/
theorem test_show_async_reset_failure :
    exec .showAsync { onePixel false true with
        allocDraws := [true], portEvents := [.ok, .ok, .ok, .ok, .ok, .ok, .fail] } =
      .next { onePixel false true with
        trace := ⟨.async, gG ++ gR ++ gB, .ok⟩ ::
          (List.replicate 5 ⟨.async, [0x00#8], .ok⟩ ++ [⟨.async, [0x00#8], .fail⟩])
        status := some .err
        cause := some .transportFail } := rfl

/-- M19, and M20 after it. -/
theorem test_deinit :
    exec .deinit threePixels = .next { State.reset with status := some .ok } ∧
      exec .deinit State.reset = .next { State.reset with status := some .err, cause := some .noInstance } := ⟨rfl, rfl⟩

/-! ### Witnesses: concrete states and operands that meet the hypotheses of each statement together -/

/-- DecodeOfEncodeIsTheCommand. -/
theorem witness_decode_of_encode :
    (Instr.setMulti [0, 2, 0xFFFF] 1#8 2#8 3#8).wellFormed = true := by decide

/-- DecodedBytesAreTheEncoding. -/
theorem witness_decoded_bytes :
    decode [0x01#8, 0xFF#8, 0xFF#8, 0x03#8, 0x04#8] = .command (.init 0xFFFF true true) [0x04#8] := by decide

/-- IllegalCommandsEndWithError, both ends of each range. -/
theorem witness_illegal_commands :
    (0x08#8 : Byte) ≤ 0x08#8 ∧ (0x08#8 : Byte) ≤ 0xFF#8 ∧
      (0x04#8 : Byte).extractLsb' 2 6 ≠ 0#6 ∧ (0x80#8 : Byte).extractLsb' 2 6 ≠ 0#6 ∧
      ({ State.reset with commands := [0x00#8, 0x04#8] } : State).Idle ∧
      decode [0x00#8, 0x04#8] = .illegal (.reservedOpcode 0x00#8) [0x04#8] := by decide

/-- TruncatedCommandsHaveNoStep, one byte short. -/
theorem witness_truncated :
    ({ State.reset with commands := [0x02#8, 0x00#8, 0x00#8, 0x00#8, 0x00#8] } : State).Idle ∧
      (Instr.setPixel 0 0#8 0#8 0#8).wellFormed = true ∧ 5 < (encode (.setPixel 0 0#8 0#8 0#8)).length ∧
      (encode (.setPixel 0 0#8 0#8 0#8)).take 5 = [0x02#8, 0x00#8, 0x00#8, 0x00#8, 0x00#8] := by decide

/-- StepRunsTheDecodedCommand, first clause. -/
theorem witness_step_idle :
    ({ State.reset with commands := [0x07#8] } : State).Idle ∧ decode [0x07#8] = .command .deinit [] := by decide

/-- StepRunsTheDecodedCommand, second clause. -/
theorem witness_step_waiting :
    waiting.Inv ∧ waiting.fault = .none ∧
      waiting.run = some { port := .sync, pos := .data 0 0 0, scratch := some gG, abuf := none } ∧
      decode [0x04#8] = .command .clear [] := by decide

/-- StepRunsTheDecodedCommand, last clause: X2 presented at a wait. -/
theorem witness_step_illegal :
    ({ waiting with portEvents := [.command [0x00#8]] } : State).fault = .none ∧
      ({ waiting with portEvents := [.command [0x00#8]] } : State).run =
        some { port := .sync, pos := .data 0 0 0, scratch := some gG, abuf := none } ∧
      decode [0x00#8] = .illegal (.reservedOpcode 0x00#8) [] := ⟨rfl, rfl, by decide⟩

/-- StepRunsTheDecodedCommand, third clause. -/
theorem witness_step_answered :
    ({ waiting with portEvents := [.ok] } : State).run = waiting.run ∧
      ({ waiting with portEvents := [.fail] } : State).portEvents = [.fail] := ⟨rfl, rfl⟩

/-- EveryCommandTakesAStep, OnlyTruncationStopsTheMachine: legal states without FAULT, after reset, idle with an instance, waiting. -/
theorem witness_legal :
    State.reset.Inv ∧ State.reset.fault = .none ∧ threePixels.Inv ∧ threePixels.fault = .none ∧
      waiting.Inv ∧ waiting.fault = .none := ⟨by decide, rfl, by decide, rfl, by decide, rfl⟩

/-- EveryStepKeepsTheInvariant: a legal state that steps into the fault, and the state after it. -/
theorem witness_invariant_step :
    ({ waiting with portEvents := [.command [0x04#8]] } : State).Inv ∧
      step { waiting with portEvents := [.command [0x04#8]] } = .next { waiting with fault := .concurrentAccess } :=
  ⟨by decide, rfl⟩

/-- InitCreatesAZeroedInstance, the smallest and the largest LED count. -/
theorem witness_init :
    State.reset.Idle ∧ State.reset.inst = none ∧ 0 = 0 ∧ 0xFFFF ≠ 0 ∧
      (({ State.reset with allocDraws := [true] } : State).alloc (3 * 0xFFFF)).1 = true := by decide

/-- InitErrorsChangeNothing; FailureEndsTheCommandAtOnce, third clause. -/
theorem witness_init_errors :
    threePixels.Idle ∧ threePixels.instValid = true ∧ State.reset.instValid = false ∧
      (({ State.reset with allocDraws := [false] } : State).alloc (3 * 1)).1 = false := by decide

/-- AllocatorDrawsTheScriptThenTheFreeValue. -/
theorem witness_alloc :
    ({ State.reset with allocDraws := [false] } : State).allocDraws = false :: [] ∧ State.reset.allocDraws = [] := by
  decide

/-- DeinitLeavesNoInstance. -/
theorem witness_deinit :
    ({ threePixels with allocDraws := [true] } : State).Idle ∧
      (({ State.reset with allocDraws := [true] } : State).alloc (3 * 1)).1 = true := by decide

/-- CommandsWithoutInstanceFail. -/
theorem witness_no_instance :
    State.reset.Idle ∧ State.reset.inst = none ∧ ∀ n sp ap, Instr.deinit ≠ .init n sp ap := by
  refine ⟨by decide, rfl, fun n sp ap h => ?_⟩
  cases h

/-- ConfigurationIsFixedByInit. -/
theorem witness_configuration :
    step { threePixels with commands := [0x04#8] } =
        .next { idleWith 3 true false [] with status := some .ok } ∧
      threePixels.inst ≠ none ∧ (idleWith 3 true false []).inst ≠ none := ⟨rfl, by decide, by decide⟩

/-- TraceOnlyGrows: a step that answers the outstanding call and adds an entry. -/
theorem witness_trace :
    ({ waiting with portEvents := [.ok] } : State).Inv ∧
      ∃ t, step { waiting with portEvents := [.ok] } = .next t ∧
        t.trace = [] ++ [⟨.sync, gG, .ok⟩] ++ [⟨.sync, gR, .pending⟩] := ⟨by decide, _, rfl, rfl⟩

/-- StoreLifetime; ShowsWriteNoState, first clause. -/
theorem witness_store_lifetime :
    (exec (.init 1 true true) { State.reset with allocDraws := [true] } =
        .next { idleWith 1 true true [] with status := some .ok }) ∧
      isShow .showSync = true ∧ (exec .showSync (onePixel true true) = .next waiting) ∧
      exec .deinit threePixels = .next { State.reset with status := some .ok } := ⟨rfl, rfl, rfl, rfl⟩

/-- SetPixelWritesOnlyItsPixel, SetPixelReferenceModeClearsTheOthers: indices at the ends of the range and just past it. -/
theorem witness_set_pixel :
    threePixels.Idle ∧ 0 < Instance.n ⟨3, true, false, []⟩ ∧
      2 < Instance.n ⟨3, true, false, []⟩ ∧
      Instance.n ⟨3, true, false, []⟩ ≤ 3 ∧ ({ Config.hw with setPixelClearsAll := true } :
        Config.Params).setPixelClearsAll = true := by decide

/-- SetMultiLightsExactlyTheListed, ClearZeroesTheStore. -/
theorem witness_set_multi : State.reset.Idle ∧ State.reset.inst = none ∧ threePixels.Idle ∧ threePixels.inst ≠ none := by
  decide

/-- SetMultiDependsOnlyOnTheListedPixels. -/
theorem witness_set_multi_same_pixels :
    threePixels.Inv ∧ ∀ x ∈ threePixels.inst, ∀ p, p < x.n →
      (p ∈ ([0, 2] : List Nat) ↔ p ∈ ([2, 7, 0, 2] : List Nat)) := by
  decide

/-- MutatorsDoNotTransmit. -/
theorem witness_mutators :
    isShow .clear = false ∧ exec .clear threePixels = .next { idleWith 3 true false [] with status := some .ok } :=
  ⟨rfl, rfl⟩

/-- ExpandIsMostSignificantBitFirst, ExpanderProperties, NibbleTableIsTheExpander, DataStreamLayout, FrameLayout,
DataStreamDecodesToOneStore, SequencerVisitsTheFixedOrder, the last channel and bit included. -/
theorem witness_symbols :
    Config.hw.Admissible ∧ Config.hw.channels = 3 ∧ Config.hw.symbolsPerByte = 8 ∧ (2 : Nat) < 3 ∧ (7 : Nat) < 8 ∧
      (239 : Nat) < Config.hw.resetBytes ∧ (1 : Nat) < Instance.n redBlue ∧ 0 < Instance.n redBlue ∧
      Instance.n ⟨0, true, true, []⟩ = 0 ∧ (dataStream Config.hw redBlue).length = 24 * 2 ∧
      ∀ b ∈ dataStream Config.hw redBlue, b = Config.hw.sym1 ∨ b = Config.hw.sym0 := by decide

/-- SyncShowSucceeds; SyncShowStopsAtTheFirstFailure and UnansweredShowWaitsForEver at the first and the last call. -/
theorem witness_show_sync :
    (onePixel true true).Idle ∧
      List.replicate 243 PortEvent.ok = List.replicate (3 * 1 + 240) .ok ++ [] ∧
      0 < 3 * 1 + 240 ∧ 242 < 3 * 1 + 240 ∧
      [PortEvent.fail] = List.replicate 0 .ok ++ .fail :: [] :=
  ⟨by decide, (List.append_nil _).symm, by decide, by decide, rfl⟩

/-- AsyncShowSucceeds, AsyncShowFailures, UnansweredShowWaitsForEver, TransientBuffersWhileWaiting; FailureEndsTheCommandAtOnce, last clause. -/
theorem witness_show_async :
    (onePixel true true).Idle ∧ 0 < Instance.n ⟨1, true, true, e1Store⟩ ∧
      (({ onePixel true true with allocDraws := [true] } : State).alloc 24).1 = true ∧
      (({ onePixel true true with allocDraws := [false] } : State).alloc 24).1 = false ∧
      (239 : Nat) < 240 ∧ (240 : Nat) < 241 := by decide

/-- TransientBuffersWhileWaiting, SHOW_SYNC's clauses: the last channel byte and the ends of the reset phase. -/
theorem witness_buffers :
    (onePixel true true).Idle ∧ (0 : Nat) < 1 ∧
      [PortEvent.ok, .ok] = List.replicate (3 * 0 + 2) .ok ∧
      [PortEvent.ok, .ok, .ok] = List.replicate (3 * 1 + 0) .ok ∧ (239 : Nat) < 240 := by decide

/-- ShowsOfNoPixels. -/
theorem witness_no_pixels :
    (idleWith 0 true true []).Idle ∧ Instance.n ⟨0, true, true, []⟩ = 0 ∧
      (idleWith 0 true true []).Inv := by decide

/-- ShowsNeedTheirPort. -/
theorem witness_no_port : (onePixel true false).Idle ∧ (onePixel false true).Idle := by decide

/-- UnansweredShowWaitsForEver, last clause; TransientBuffersWhileWaiting. -/
theorem witness_waits :
    exec .showSync (onePixel true true) = .next waiting ∧ waiting.busy = true ∧ waiting.portEvents = [] ∧
      step waiting = .next waiting := ⟨rfl, rfl, rfl, rfl⟩

/-- ResumedShowIsTheUninterruptedShow, TransmitsFollowTheCallList. -/
theorem witness_resumed :
    isShow .showSync = true ∧ (onePixel true true).Idle ∧
      (exec .showSync { onePixel true true with portEvents := [] } = .next waiting) ∧ waiting.busy = true :=
  ⟨rfl, by decide, rfl, rfl⟩

/-- SuccessfulShowSendsTheFrame; ShowBytesDependOnlyOnTheStore, with the next one: S1. -/
theorem witness_successful_show :
    (onePixel true true).Idle ∧
      exec .showSync { onePixel true true with portEvents := List.replicate 243 .ok } =
        .next { onePixel true true with
          trace := [⟨.sync, gG, .ok⟩, ⟨.sync, gR, .ok⟩, ⟨.sync, gB, .ok⟩] ++ List.replicate 240 ⟨.sync, [0x00#8], .ok⟩
          status := some .ok } := ⟨by decide, (isNext_iff _ _).1 (by decide +kernel)⟩

/-- The same on the other port, from the same instance: S7. -/
theorem witness_successful_show_async :
    exec .showAsync { onePixel true true with allocDraws := [true], portEvents := List.replicate 241 .ok } =
      .next { onePixel true true with
        trace := ⟨.async, gG ++ gR ++ gB, .ok⟩ :: List.replicate 240 ⟨.async, [0x00#8], .ok⟩
        status := some .ok } := (isNext_iff _ _).1 (by decide +kernel)

/-- FailureEndsTheCommandAtOnce, second clause; ShowsWriteNoState, second clause. -/
theorem witness_failure :
    ({ waiting with portEvents := [.fail] } : State).portEvents = .fail :: [] ∧
      resumeShow { waiting with portEvents := [.fail] } =
        .next { onePixel true true with
          trace := [⟨.sync, gG, .fail⟩], status := some .err, cause := some .transportFail } := ⟨rfl, rfl⟩

/-- ErrorExitIsPrecise; ShowsWriteNoState, last clause; FailureEndsTheCommandAtOnce, first clause. -/
theorem witness_error_exit :
    ∃ t, exec .showSync { onePixel true true with portEvents := [.ok, .fail] } = .next t ∧ t.busy = false ∧
      t.status = some .err ∧ t.trace = [] ++ [⟨.sync, gG, .ok⟩, ⟨.sync, gR, .fail⟩] := ⟨_, rfl, rfl, rfl, rfl⟩

/-- FirstApplicableCauseIsReported: a cause of places 1 to 4 applies, and a later one too. -/
theorem witness_cause :
    causeApplies .alreadyInit (.init 5 false false) threePixels = true ∧
      causeApplies .noPort (.init 5 false false) threePixels = true ∧ Cause.rank .alreadyInit ≤ 4 ∧
      exec (.init 5 false false) threePixels =
        .next { threePixels with status := some .err, cause := some .alreadyInit } := ⟨rfl, rfl, by decide, rfl⟩

/-- CommandDuringAShowIsAFault. -/
theorem witness_concurrent :
    waiting.fault = .none ∧ waiting.busy = true ∧
      ({ waiting with fault := .concurrentAccess } : State).fault = .concurrentAccess := ⟨rfl, rfl, rfl⟩

/-- SerialisedHostNeverFaults. -/
theorem witness_serialised :
    ({ waiting with portEvents := [.ok, .fail] } : State).Serialised ∧
      ∃ t, step { waiting with portEvents := [.ok, .fail] } = .next t := ⟨by decide, _, rfl⟩

/-- ShowsSucceedForEveryParameterValue, at a layout of two channels of two symbols. -/
theorem witness_parameters :
    (onePixel true true).Idle ∧ [PortEvent.ok, .ok, .ok] = List.replicate (small.channels * 1 + small.resetBytes) .ok ++ [] ∧
      (({ onePixel true true with allocDraws := [true] } : State).alloc (small.channels * small.symbolsPerByte * 1)).1 = true ∧
      [PortEvent.ok, .ok] = List.replicate (1 + small.resetBytes) .ok ++ [] := by decide

/-- LayoutParametersGiveTheSizes: an operand, a symbol and a position of that layout. -/
theorem witness_layout :
    (255 : Nat) < 2 ^ small.idxWidth ∧ (1 : Nat) < small.channels ∧ (1 : Nat) < small.symbolsPerByte ∧
      (0 : Nat) < small.resetBytes := by decide

/-- DecodeOfEncodeForEveryIndexWidth: fields of one byte and of two, the second not wholly used. -/
theorem witness_index_width :
    (Instr.setPixel 255 1#8 2#8 3#8).wellFormedWith small = true ∧
      decodeWith small [0x02#8, 0xFF#8, 1#8, 2#8, 3#8] = .command (.setPixel 255 1#8 2#8 3#8) [] ∧
      (Instr.setPixel 4095 1#8 2#8 3#8).wellFormedWith { small with idxWidth := 12 } = true := by decide

/-- PixelStoreCommandsForEveryParameterValue: an instance of that layout, and none. -/
theorem witness_store_parameters :
    State.reset.Idle ∧ State.reset.inst = none ∧
      (({ State.reset with allocDraws := [true] } : State).alloc (small.channels * 1)).1 = true ∧
      small.setPixelClearsAll = false ∧ (smallState []).Idle ∧ (1 : Nat) < 2 := by decide

/-- MachineRunsForEveryParameterValue, EveryStepKeepsTheInvariantForEveryParameterValue: a legal state of that layout, before and
after CLEAR; an illegal byte in the stream. -/
theorem witness_runs_parameters :
    (smallState [(3, 0x11#8)]).InvWith small ∧ (smallState []).fault = .none ∧ (smallState []).run = none ∧
      decodeWith small [0x04#8] = .command .clear [] ∧
      decodeWith small [0x00#8] = .illegal (.reservedOpcode 0x00#8) [] ∧
      stepWith small { smallState [(3, 0x11#8)] with commands := [0x04#8] } =
        .next { smallState [] with status := some .ok } :=
  ⟨by decide, rfl, rfl, by decide, by decide, rfl⟩

/-- The same, at the waits of a show: every parameter that is a size is 0, and SHOW_ASYNC waits for its one call's answer, which a
command, an illegal byte, or an answer may follow. -/
theorem witness_runs_zero :
    zeroWaiting.fault = .none ∧ zeroWaiting.InvWith zero ∧
      stepWith zero { smallState [] with commands := [0x06#8], allocDraws := [true] } = .next zeroWaiting ∧
      zeroWaiting.run ≠ none ∧ decodeWith zero [0x04#8] = .command .clear [] ∧
      decodeWith zero [0x00#8] = .illegal (.reservedOpcode 0x00#8) [] ∧
      stepWith zero { zeroWaiting with portEvents := [.ok] } =
        .next { smallState [] with trace := [⟨.async, [], .ok⟩], status := some .ok } :=
  ⟨by decide, by decide, rfl, by decide, by decide, by decide, rfl⟩

/-- R5, R85, R87 with other widths: a value that does not fit 12 bits is no operand; 24 bits are three bytes. -/
theorem test_other_widths :
    decodeWith { small with idxWidth := 12 } [0x02#8, 0x00#8, 0x10#8, 1#8, 2#8, 3#8] = .illegal .wideOperand [] ∧
      decodeWith { small with idxWidth := 24 } [0x01#8, 0x01#8, 0x02#8, 0x03#8, 0x01#8] =
        .command (.init 0x030201 true false) [] := by decide

/-- R5, R54, R144 with two channels of two symbols: G = 10, R = 01 in the low bits, pixel after pixel. -/
theorem test_other_layout :
    dataStream small ⟨2, true, true, [(0, 0b10#8), (1, 0b01#8), (3, 0b11#8)]⟩ =
      [0xF0#8, 0xC0#8, 0xC0#8, 0xF0#8, 0xC0#8, 0xC0#8, 0xF0#8, 0xF0#8] := by decide

/-- R155 away from this hardware: at twice the byte time, 625 / 312.5 = 2 and 312 / 312.5 rounds to 1. -/
theorem test_rederived_symbols :
    derivedSym1 { Config.hw with tBytePs := 2500000 } = 0b11000000#8 ∧
      derivedSym0 { Config.hw with tBytePs := 2500000 } = 0b10000000#8 := by decide

end Sys2Proof.Machine.Tests
end

section
/-! SUPPORT. The round trip of decoder and encoder at any parameter values, format by format, from the laws of Laws/Decode.lean. -/

namespace Sys2Proof

open Sys2Proof.Config (Params)

/-! ### Decoder and encoder, format by format (R82 to R84) -/

theorem decodeInit_operandBytes (P : Params) (n : Nat) (sp ap : Bool) (rest : List Byte)
    (h : (Instr.init n sp ap).wellFormedWith P = true) :
    decodeInit P (operandBytes P (.init n sp ap) ++ rest) = .command (.init n sp ap) rest := by
  obtain ⟨hrsv, hsp, hap⟩ := flagsByte_bits sp ap
  rw [decodeInit, operandBytes, List.append_assoc, takeField_field P n _ h]
  simp only [List.cons_append, List.nil_append, hrsv, hsp, hap, if_true]
  exact checkOperands_ok P _ rest h

theorem decodePix_operandBytes (P : Params) (index : Nat) (r g b : Byte) (rest : List Byte)
    (h : (Instr.setPixel index r g b).wellFormedWith P = true) :
    decodePix P (operandBytes P (.setPixel index r g b) ++ rest) = .command (.setPixel index r g b) rest := by
  rw [decodePix, operandBytes, List.append_assoc, takeField_field P index _ h]
  exact checkOperands_ok P _ rest h

theorem decodeMulti_operandBytes (P : Params) (is : List Nat) (r g b : Byte) (rest : List Byte)
    (h : (Instr.setMulti is r g b).wellFormedWith P = true) :
    decodeMulti P (operandBytes P (.setMulti is r g b) ++ rest) = .command (.setMulti is r g b) rest := by
  obtain ⟨hcount, hall⟩ := Bool.and_eq_true_iff.1 h
  rw [decodeMulti, operandBytes, List.append_assoc, takeField_field P is.length _ hcount]
  simp only [List.append_assoc, takeIndices_fields P is _ (List.all_eq_true.1 hall)]
  exact checkOperands_ok P _ rest h

theorem decodeInit_eq_command {P : Params} {bs : List Byte} {i : Instr} {rest : List Byte}
    (h : decodeInit P bs = .command i rest) : opcode i = 0x01#8 ∧ bs = operandBytes P i ++ rest := by
  unfold decodeInit at h
  split at h
  · next n flags tail hf =>
    split at h
    · next hrsv =>
      obtain ⟨-, rfl, rfl⟩ := checkOperands_command h
      obtain ⟨rfl, -⟩ := takeField_eq_some hf
      refine ⟨rfl, ?_⟩
      rw [operandBytes, flagsByte_of_bits flags hrsv, List.append_assoc]
      rfl
    · cases h
  · cases h

theorem decodePix_eq_command {P : Params} {bs : List Byte} {i : Instr} {rest : List Byte}
    (h : decodePix P bs = .command i rest) : opcode i = 0x02#8 ∧ bs = operandBytes P i ++ rest := by
  unfold decodePix at h
  split at h
  · next index r g b tail hf =>
    obtain ⟨-, rfl, rfl⟩ := checkOperands_command h
    obtain ⟨rfl, -⟩ := takeField_eq_some hf
    exact ⟨rfl, by simp [operandBytes, field]⟩
  · cases h

theorem decodeMulti_eq_command {P : Params} {bs : List Byte} {i : Instr} {rest : List Byte}
    (h : decodeMulti P bs = .command i rest) : opcode i = 0x03#8 ∧ bs = operandBytes P i ++ rest := by
  unfold decodeMulti at h
  split at h
  · next count bs' hf =>
    split at h
    · next is r g b tail hi =>
      obtain ⟨-, rfl, rfl⟩ := checkOperands_command h
      obtain ⟨rfl, -⟩ := takeField_eq_some hf
      obtain ⟨rfl, rfl⟩ := takeIndices_eq_some hi
      exact ⟨rfl, by simp [operandBytes, field]⟩
    · cases h
  · cases h

/-! ### Decoder and encoder, whole commands (R80, R86) -/

/-- Decoding an encoding gives the command and the bytes after it, for any parameter values. -/
theorem decodeWith_encodeWith (P : Params) (i : Instr) (rest : List Byte) (h : i.wellFormedWith P = true) :
    decodeWith P (encodeWith P i ++ rest) = .command i rest := by
  cases i with
  | init n sp ap => exact decodeInit_operandBytes P n sp ap rest h
  | setPixel index r g b => exact decodePix_operandBytes P index r g b rest h
  | setMulti is r g b => exact decodeMulti_operandBytes P is r g b rest h
  | clear => rfl
  | showSync => rfl
  | showAsync => rfl
  | deinit => rfl

/-- What the opcode map reads is what the encoder writes. -/
theorem decodeOpcode_eq_command {P : Params} {op : Byte} {bs : List Byte} {i : Instr} {rest : List Byte}
    (h : decodeOpcode P op bs = .command i rest) : op = opcode i ∧ bs = operandBytes P i ++ rest := by
  have ofFormat {k : Byte} (hop : op.toNat = k.toNat) (hi : opcode i = k ∧ bs = operandBytes P i ++ rest) :
      op = opcode i ∧ bs = operandBytes P i ++ rest := ⟨(BitVec.eq_of_toNat_eq hop).trans hi.1.symm, hi.2⟩
  unfold decodeOpcode at h
  split at h
  · next hop => exact ofFormat (k := 0x01#8) hop (decodeInit_eq_command h)
  · next hop => exact ofFormat (k := 0x02#8) hop (decodePix_eq_command h)
  · next hop => exact ofFormat (k := 0x03#8) hop (decodeMulti_eq_command h)
  · next hop => cases h; exact ofFormat (k := 0x04#8) hop ⟨rfl, rfl⟩
  · next hop => cases h; exact ofFormat (k := 0x05#8) hop ⟨rfl, rfl⟩
  · next hop => cases h; exact ofFormat (k := 0x06#8) hop ⟨rfl, rfl⟩
  · next hop => cases h; exact ofFormat (k := 0x07#8) hop ⟨rfl, rfl⟩
  · cases h

/-- A byte string that decodes to a command is that command's encoding and the bytes after it. -/
theorem decodeWith_eq_command {P : Params} {bs : List Byte} {i : Instr} {rest : List Byte}
    (h : decodeWith P bs = .command i rest) : bs = encodeWith P i ++ rest := by
  cases bs with
  | nil => cases h
  | cons op bs =>
    obtain ⟨rfl, rfl⟩ := decodeOpcode_eq_command h
    rfl

/-- Settles O55: the round trip format by format, and the inversion of the opcode map. -/
theorem decodeOfEncodeForEveryIndexWidth : Obligations.DecodeOfEncodeForEveryIndexWidth :=
  fun P i rest => ⟨decodeWith_encodeWith P i rest, fun _ h => ⟨decodeWith_wellFormed h, decodeWith_eq_command h⟩⟩

end Sys2Proof
end

section
/-! SUPPORT. Every step keeps the invariant, for any parameter values: what the invariant says between two calls, that issuing a
call and ending a command give it back, and so along the events of a show. -/

namespace Sys2Proof.Machine

open Sys2Proof.Config (Params)

/-! ### Between two calls -/

/-- What the invariant says of a state whose calls have all been answered, whatever the show record holds: where a command begins,
where it ends, and where the next call is issued. -/
structure Answered (P : Params) (s : State) : Prop where
  legal : ∀ x ∈ s.inst, x.Wf P
  answered : allAnswered s.trace
  kinds : ∀ e ∈ s.trace, e.Wf P
  status : (s.status = none ∧ s.cause = none) ∨ s.status = some (statusOf s.cause)
  fault : s.fault = .none

/-- A show on `port` makes a call `k`: the port is present, the call is in its list, and for SHOW_ASYNC there is a pixel. -/
structure MayIssue (P : Params) (x : Instance) (port : Port) (k : Nat) : Prop where
  present : x.portPresent port = true
  call : k < (callList P x port).length
  pixels : port = .async → 0 < x.n

theorem Answered.of_idle {P : Params} {s : State} (h : s.InvWith P) (hs : s.Idle) : Answered P s := by
  obtain ⟨legal, -, idle, -, kinds, status⟩ := h
  exact ⟨legal, idle hs.2, kinds, status, hs.1⟩

theorem Answered.alloc {P : Params} {s : State} (h : Answered P s) (n : Nat) : Answered P (s.alloc n).2 where
  legal := by simpa using h.legal
  answered := by simpa using h.answered
  kinds := by simpa using h.kinds
  status := by simpa using h.status
  fault := by simpa using h.fault

/-- A command's end gives the invariant. -/
theorem Answered.endCommand {P : Params} {s : State} (h : Answered P s) (c : Option Cause) : (s.endCommand c).InvWith P :=
  ⟨h.legal, fun _ hr => by simp at hr, fun _ => h.answered, fun hf => by simp [h.fault] at hf, h.kinds, .inr rfl⟩

/-- Issuing a call gives the invariant. -/
theorem Answered.issued {P : Params} {s : State} {x : Instance} {port : Port} {k : Nat} (h : Answered P s)
    (hi : s.inst = some x) (hk : MayIssue P x port k) : (issuedState P x port s k).InvWith P := by
  refine ⟨h.legal, fun run hr => ?_, fun hr => by simp [issuedState] at hr, fun _ => rfl, fun e he => ?_, h.status⟩
  · obtain rfl : runAt P x port k = run := Option.some.inj hr
    refine ⟨x, hi, runAt_wf P x port k hk.present hk.call hk.pixels, ?_, ?_⟩
    · rw [callBytes_runAt P x port k hk.call]
      simp [issuedState, runAt]
    · simpa [issuedState] using h.answered
  · simp only [issuedState, State.transmit_trace, List.mem_append, List.mem_singleton] at he
    rcases he with he | rfl
    · exact h.kinds e he
    · exact callAt_entry_wf P x port k .pending hk.call hk.pixels

/-! ### A show in progress -/

/-- In a legal state a show in progress waits at one of its calls, and an answer leaves every call answered. -/
theorem State.InvWith.waits {P : Params} {s : State} (h : s.InvWith P) (hf : s.fault = .none) (hb : s.busy = true) :
    ∃ x port k, s.inst = some x ∧ s.run = some (runAt P x port k) ∧ MayIssue P x port k ∧
      ∀ a, a ≠ .pending → Answered P (s.answerCall a) := by
  obtain ⟨legal, inProgress, -, -, kinds, status⟩ := h
  obtain ⟨run, hr⟩ := (State.busy_eq_true s).1 hb
  obtain ⟨x, hi, hrun, hlast, hold⟩ := inProgress run hr
  obtain ⟨k, hk, hrunAt, hpix⟩ := wf_runAt P x run hrun
  refine ⟨x, run.port, k, hi, hr.trans (congrArg some hrunAt), ⟨hrun.1, hk, hpix⟩, fun a ha => ?_⟩
  have htrace := List.dropLast_append_getLast? _ hlast
  have hanswer : (s.answerCall a).trace = s.trace.dropLast ++ [⟨run.port, callBytes P x run, a⟩] := by
    conv_lhs => rw [State.answerCall_trace, ← htrace]
    exact answerLast_append ..
  refine ⟨legal, ?_, ?_, status, hf⟩
  · rw [hanswer]
    intro e he
    rcases List.mem_append.1 he with he | he
    · exact hold e he
    · obtain rfl := List.mem_singleton.1 he
      exact ha
  · rw [hanswer]
    intro e he
    rcases List.mem_append.1 he with he | he
    · exact kinds e (List.mem_of_mem_dropLast he)
    · obtain rfl := List.mem_singleton.1 he
      exact kinds ⟨run.port, callBytes P x run, .pending⟩ (List.mem_of_getLast? hlast)

/-- In a legal state an OK leads to a legal state. -/
theorem callAnsweredOk_inv {P : Params} {s : State} (h : s.InvWith P) (hf : s.fault = .none) (hb : s.busy = true) :
    ∃ t, callAnsweredOk P s = .next t ∧ t.InvWith P := by
  obtain ⟨x, port, k, hi, hr, hk, answered⟩ := h.waits hf hb
  have hok := answered .ok (by decide)
  refine ⟨_, callAnsweredOk_runAt P x port s k hr hi hk.call, ?_⟩
  split
  · next hnext => exact hok.issued hi ⟨hk.present, hnext, hk.pixels⟩
  · exact hok.endCommand none

/-- A legal show runs through any events, to a legal state. -/
theorem runShow_inv (P : Params) (es : List PortEvent) (s : State) (h : s.InvWith P) (hf : s.fault = .none)
    (hb : s.busy = true) : ∃ t, runShow P es s = .next t ∧ t.InvWith P := by
  induction es generalizing s with
  | nil => exact ⟨_, rfl, h⟩
  | cons e es ih =>
    cases e with
    | command bytes => exact ⟨_, rfl, h⟩
    | fail =>
      obtain ⟨_, _, _, _, _, _, answered⟩ := h.waits hf hb
      exact ⟨_, rfl, (answered .fail (by decide)).endCommand (some .transportFail)⟩
    | ok =>
      obtain ⟨u, hu, hinv⟩ := callAnsweredOk_inv h hf hb
      rw [runShow, hu, andThen_next]
      split
      · next hbusy => exact ih u hinv ((callAnsweredOk_next P s u hu).1.fault.trans hf) hbusy
      · exact ⟨_, rfl, hinv⟩

/-- A show begun between two calls runs through any events, to a legal state. -/
theorem runShow_waitState_inv {P : Params} {s t : State} {x : Instance} {port : Port} {es : List PortEvent}
    (h : Answered P s) (hi : s.inst = some x) (hk : MayIssue P x port 0)
    (ht : runShow P es (waitState P x port s 0) = .next t) : t.InvWith P := by
  obtain ⟨u, hu, hinv⟩ := runShow_inv P es (waitState P x port s 0)
    (issuedState_zero P x port s ▸ h.issued hi hk) h.fault (waitState_busy ..)
  rw [hu] at ht
  cases ht
  exact hinv

/-! ### Commands -/

theorem isShow_eq_true (i : Instr) : isShow i = true ↔ i = .showSync ∨ i = .showAsync := by
  cases i <;> simp [isShow]

theorem execWith_mutator_inv {P : Params} {i : Instr} {s t : State} (hi : isShow i = false) (hw : i.wellFormedWith P = true)
    (hs : s.Idle) (h : Answered P s) (ht : execWith P i s = .next t) : t.InvWith P := by
  obtain ⟨inst, draws, count, c, hexec, change, -⟩ := execWith_mutator_cases P i s hi hs.1 hs.2
  rw [hexec] at ht
  cases ht
  have written : Answered P { s with inst := inst, allocDraws := draws, allocCount := count } :=
    ⟨(change hw).legal h.legal, h.answered, h.kinds, h.status, h.fault⟩
  exact written.endCommand c

theorem execShowSyncWith_inv {P : Params} {s t : State} (hs : s.Idle) (h : Answered P s)
    (ht : execShowSyncWith P s = .next t) : t.InvWith P := by
  rcases execShowSync_idle_cases P s hs.1 hs.2 with ⟨-, e⟩ | ⟨x, -, -, e⟩ | ⟨x, -, -, -, e⟩ | ⟨x, hi, hp, hlen, e⟩ <;>
    rw [e] at ht
  · cases ht; exact h.endCommand _
  · cases ht; exact h.endCommand _
  · cases ht; exact h.endCommand _
  · exact runShow_waitState_inv (port := .sync) h hi ⟨hp, hlen, by simp⟩ ht

theorem execShowAsyncWith_inv {P : Params} {s t : State} (hs : s.Idle) (h : Answered P s)
    (ht : execShowAsyncWith P s = .next t) : t.InvWith P := by
  rcases execShowAsync_idle_cases P s hs.1 hs.2 with
    ⟨-, e⟩ | ⟨x, -, -, e⟩ | ⟨x, -, -, -, e⟩ | ⟨x, -, -, -, -, e⟩ | ⟨x, hi, hp, hn, -, e⟩ <;> rw [e] at ht
  · cases ht; exact h.endCommand _
  · cases ht; exact h.endCommand _
  · cases ht; exact h.endCommand _
  · cases ht; exact (h.alloc _).endCommand _
  · have hlen : 0 < (callList P x .async).length := Nat.succ_pos _
    exact runShow_waitState_inv (port := .async) (h.alloc _) ((State.alloc_inst ..).trans hi)
      ⟨hp, hlen, fun _ => Nat.pos_of_ne_zero hn⟩ ht

/-- FAULT set while a show is in progress keeps the invariant (R211). -/
theorem State.InvWith.concurrentAccess {P : Params} {s : State} (h : s.InvWith P) (hb : s.busy = true) :
    s.concurrentAccess.InvWith P := by
  obtain ⟨legal, inProgress, idle, -, kinds, status⟩ := h
  exact ⟨legal, inProgress, idle, fun _ => hb, kinds, status⟩

/-- Every command whose operands fit keeps the invariant. -/
theorem execWith_inv {P : Params} {i : Instr} {s t : State} (hw : i.wellFormedWith P = true) (h : s.InvWith P)
    (ht : execWith P i s = .next t) : t.InvWith P := by
  rcases execWith_next_cases P i s t ht with ⟨-, hb, rfl⟩ | hs
  · exact h.concurrentAccess hb
  · have ha := Answered.of_idle h hs
    cases hshow : isShow i with
    | false => exact execWith_mutator_inv hshow hw hs ha ht
    | true =>
      obtain rfl | rfl := (isShow_eq_true i).1 hshow
      · exact execShowSyncWith_inv hs ha ht
      · exact execShowAsyncWith_inv hs ha ht

/-- An illegal command keeps the invariant (R87). -/
theorem execIllegal_inv {P : Params} {s t : State} (h : s.InvWith P) (ht : execIllegal s = .next t) : t.InvWith P := by
  rcases execIllegal_next_cases s t ht with ⟨hb, rfl⟩ | ⟨hs, rfl⟩
  · exact h.concurrentAccess hb
  · exact (Answered.of_idle h hs).endCommand _

/-! ### Steps -/

/-- Taking up a command's bytes keeps the invariant, which reads no input of the environment. -/
theorem Taken.inv {P : Params} {s u : State} (hu : Taken s u) (h : s.InvWith P) : u.InvWith P := by
  obtain ⟨-, rest, rfl⟩ | ⟨-, bytes, es, -, rfl⟩ := hu
  · exact h
  · exact h

/-- Every step keeps the invariant, for any parameter values. -/
theorem stepWith_inv {P : Params} {s t : State} (h : s.InvWith P) (ht : stepWith P s = .next t) : t.InvWith P := by
  obtain ⟨hf, rfl | ⟨hb, hshow⟩ | ⟨u, ⟨i, hexec, hw⟩ | hill, hu⟩⟩ := stepWith_next_cases P s t ht
  · exact h
  · obtain ⟨v, hv, hinv⟩ := runShow_inv P s.portEvents s h hf hb
    rw [resumeShowWith, hv] at hshow
    cases hshow
    exact hinv
  · exact execWith_inv hw (hu.inv h) hexec
  · exact execIllegal_inv (hu.inv h) hill

/-- Settles O58: a step is one of the cases of `stepWith_next_cases`, and each keeps the invariant. -/
theorem everyStepKeepsTheInvariantForEveryParameterValue :
    Obligations.EveryStepKeepsTheInvariantForEveryParameterValue :=
  fun _ _ _ h ht => stepWith_inv h ht

end Sys2Proof.Machine
end

section
/-! SUPPORT. The order of the sequencer for any parameter values (R28): one group of SYMBOLS_PER_BYTE positions per channel byte,
in the order of the store's offsets, then the reset period. -/

namespace Sys2Proof.Machine

open Sys2Proof.Config (Params)

/-- Where SEQ stands when `q` channel bytes have been sent: the group of the store's byte `q`, after the last the reset period. -/
def groupAt (P : Params) (n q : Nat) : Option SeqPos :=
  if q < P.channels * n then some (groupStart P (q / P.channels) (q % P.channels)) else firstReset P

theorem groupAt_channelOffset (P : Params) {n p c : Nat} (hp : p < n) (hc : c < P.channels) :
    groupAt P n (channelOffset P p c) = some (groupStart P p c) := by
  rw [groupAt, if_pos (channelOffset_lt P hp hc), channelOffset, Nat.mul_add_div (by omega), Nat.div_eq_of_lt hc,
    Nat.mul_add_mod, Nat.mod_eq_of_lt hc, Nat.add_zero]

theorem groupAt_end (P : Params) (n : Nat) : groupAt P n (P.channels * n) = firstReset P := if_neg (Nat.lt_irrefl _)

theorem firstPos_eq_groupAt (P : Params) (n : Nat) : firstPos P n = groupAt P n 0 := by
  simp [firstPos, groupAt]

/-- After the last symbol of a channel byte comes the next group. -/
theorem advance_groupEnd_eq_groupAt (P : Params) {n p c : Nat} (hp : p < n) (hc : c < P.channels) :
    (groupEnd p c).advance P n = groupAt P n (channelOffset P p c + 1) := by
  rw [advance_groupEnd]
  by_cases hc1 : c + 1 < P.channels
  · rw [if_pos hc1]
    exact (groupAt_channelOffset P hp hc1).symm
  · have hnext : channelOffset P p c + 1 = P.channels * (p + 1) := by
      rw [Nat.mul_succ]; simp only [channelOffset]; omega
    rw [if_neg hc1, hnext]
    by_cases hn : p + 1 < n
    · rw [if_pos hn]
      exact (groupAt_channelOffset P hn (by omega)).symm
    · rw [if_neg hn, show p + 1 = n by omega, groupAt_end]

/-- The positions within a group: k counts down from SYMBOLS_PER_BYTE - 1. -/
theorem posAfter_add_of_groupStart (P : Params) {n i p c : Nat} (h : posAfter P n i = some (groupStart P p c)) (m : Nat)
    (hm : m < P.symbolsPerByte) : posAfter P n (i + m) = some (.data p c (P.symbolsPerByte - 1 - m)) := by
  induction m with
  | zero => exact h
  | succ m ih =>
    rw [← Nat.add_assoc, posAfter, ih (by omega), Option.bind_some,
      show P.symbolsPerByte - 1 - m = P.symbolsPerByte - 1 - (m + 1) + 1 by omega]
    rfl

/-- Each group takes SYMBOLS_PER_BYTE advances. -/
theorem posAfter_group (P : Params) (n : Nat) (hS : 0 < P.symbolsPerByte) (q : Nat) (hq : q ≤ P.channels * n) :
    posAfter P n (P.symbolsPerByte * q) = groupAt P n q := by
  induction q with
  | zero => exact firstPos_eq_groupAt P n
  | succ q ih =>
    obtain ⟨p, c, hp, hc, rfl⟩ := exists_channel P n q hq
    have hstart := (ih (by omega)).trans (groupAt_channelOffset P hp hc)
    have hlast := posAfter_add_of_groupStart P hstart (P.symbolsPerByte - 1) (by omega)
    rw [Nat.sub_self] at hlast
    have hnext : P.symbolsPerByte * (channelOffset P p c + 1) =
        P.symbolsPerByte * channelOffset P p c + (P.symbolsPerByte - 1) + 1 := by rw [Nat.mul_succ]; omega
    rw [hnext, posAfter, hlast, Option.bind_some]
    exact advance_groupEnd_eq_groupAt P hp hc

/-- The position of bit `k` of channel `c` of pixel `p`. -/
theorem posAfter_data (P : Params) {n p c k : Nat} (hp : p < n) (hc : c < P.channels) (hk : k < P.symbolsPerByte) :
    posAfter P n (P.symbolsPerByte * channelOffset P p c + (P.symbolsPerByte - 1 - k)) = some (.data p c k) := by
  have hstart := posAfter_group P n (by omega) _ (Nat.le_of_lt (channelOffset_lt P hp hc))
  rw [groupAt_channelOffset P hp hc] at hstart
  rw [posAfter_add_of_groupStart P hstart _ (by omega), Nat.sub_sub_self (by omega)]

/-- The position of reset byte `j`. -/
theorem posAfter_reset (P : Params) (n : Nat) (hS : 0 < P.symbolsPerByte) (j : Nat) (hj : j < P.resetBytes) :
    posAfter P n (P.symbolsPerByte * (P.channels * n) + j) = some (.reset j) := by
  induction j with
  | zero => rw [Nat.add_zero, posAfter_group P n hS _ (Nat.le_refl _), groupAt_end, firstReset, if_pos hj]
  | succ j ih =>
    rw [← Nat.add_assoc, posAfter, ih (by omega), Option.bind_some, SeqPos.advance, if_pos hj]

/-- The sequencer is IDLE right after the last reset byte. -/
theorem posAfter_end (P : Params) (n : Nat) (hS : 0 < P.symbolsPerByte) :
    posAfter P n (P.symbolsPerByte * (P.channels * n) + P.resetBytes) = none := by
  cases hR : P.resetBytes with
  | zero => rw [Nat.add_zero, posAfter_group P n hS _ (Nat.le_refl _), groupAt_end, firstReset, if_neg (by omega)]
  | succ r =>
    rw [← Nat.add_assoc, posAfter, posAfter_reset P n hS r (by omega), Option.bind_some, SeqPos.advance,
      if_neg (by omega)]

/-- The sequencer stays IDLE. -/
theorem posAfter_idle (P : Params) {n i j : Nat} (h : posAfter P n i = none) (hj : i ≤ j) : posAfter P n j = none := by
  induction j, hj using Nat.le_induction with
  | base => exact h
  | succ j _ ih => rw [posAfter, ih, Option.bind_none]

/-! ### The layout parameters -/

theorem setMulti_wellFormedWith (P : Params) (is : List Nat) (r g b : Byte) :
    (Instr.setMulti is r g b).wellFormedWith P = true ↔ is.length < 2 ^ P.idxWidth ∧ ∀ i ∈ is, i < 2 ^ P.idxWidth := by
  simp [Instr.wellFormedWith, Params.fits]

/-- Symbol groups before channel `c` of pixel `p`, in symbols: a pixel's symbols are its channels' groups. -/
theorem symbolsPerByte_mul_channelOffset (P : Params) (p c : Nat) :
    P.symbolsPerByte * channelOffset P p c = P.channels * P.symbolsPerByte * p + P.symbolsPerByte * c := by
  rw [channelOffset]; ring

/-- Settles O53: every size from the length laws, the symbols from the data stream's elements, the order from the groups. -/
theorem layoutParametersGiveTheSizes : Obligations.LayoutParametersGiveTheSizes := by
  intro P
  have symbols (n : Nat) : P.channels * P.symbolsPerByte * n = P.symbolsPerByte * (P.channels * n) := by ring
  refine ⟨fun _ _ _ => decide_eq_true_iff, fun _ _ _ _ => decide_eq_true_iff, setMulti_wellFormedWith P, expand_length P,
    fun x => ⟨rfl, rfl, dataStream_length P x, syncCalls_length P x, asyncCalls_length P x,
      fun p c m => dataStream_getElem? P x p c m⟩,
    fun n p c k j => ⟨fun hp hc hk => ?_, fun hS hj => ?_, fun hS hj => ?_⟩⟩
  · rw [← symbolsPerByte_mul_channelOffset]
    exact posAfter_data P hp hc hk
  · rw [symbols]
    exact posAfter_reset P n hS j hj
  · exact posAfter_idle P (posAfter_end P n hS) (symbols n ▸ hj)

/-- Settles O52: the values of R5, and the parametric meanings at them. -/
theorem parametricMachineAtThisHardware : Obligations.ParametricMachineAtThisHardware :=
  ⟨rfl, fun i s => congrFun (congrFun execWith_hw i) s, congrFun stepWith_hw⟩

end Sys2Proof.Machine
end

section
/-! SUPPORT. What each command does to an idle block when it succeeds, as a record update of the state, for any parameter values. -/

namespace Sys2Proof.Machine

open Sys2Proof.Config (Params)

/-! ### The end of a command at an idle block -/

/-- At an idle block the end of a command writes STATUS and its label and nothing else. -/
theorem State.endCommand_of_run_eq_none {s : State} (hr : s.run = none) (c : Option Cause) :
    s.endCommand c = { s with status := some (statusOf c), cause := c } := by
  rw [State.endCommand, hr]

theorem storeResult_ok_of_run_eq_none {s : State} (hr : s.run = none) (y : Instance) :
    storeResult s (.ok y) = .next { s with inst := some y, status := some .ok, cause := none } :=
  congrArg Host.Outcome.next (State.endCommand_of_run_eq_none (s := { s with inst := some y }) hr none)

theorem shownState_of_run_eq_none (P : Params) (x : Instance) (port : Port) {s : State} (hr : s.run = none) :
    shownState P x port s =
      { s with trace := s.trace ++ entries port .ok (callList P x port), status := some .ok, cause := none } :=
  State.endCommand_of_run_eq_none (s := { s with trace := s.trace ++ entries port .ok (callList P x port) }) hr none

/-! ### The pixel store commands (R110, R112, R114, R116) -/

theorem execInitWith_success (P : Params) {s : State} {n : Nat} {sp ap : Bool} (hs : s.Idle) (hi : s.inst = none)
    (hp : sp = true ∨ ap = true) (hn : n ≠ 0) (ha : (s.alloc (P.channels * n)).1 = true) :
    execInitWith P n sp ap s =
      .next { (s.alloc (P.channels * n)).2 with
        inst := some (freshInstance n sp ap), status := some .ok, cause := none } := by
  have hr : (s.alloc (P.channels * n)).2.run = none := (State.alloc_run ..).trans hs.2
  have hport : ¬ (sp = false ∧ ap = false) := by rcases hp with rfl | rfl <;> simp
  have hsize : (freshInstance n sp ap).storeBytes P = P.channels * n := rfl
  rw [execInitWith, accept_idle s _ hs.1 hs.2, if_neg (by simp [hi]), if_neg hport, if_neg hn, hsize]
  simp only [ha, Bool.true_eq_false, if_false]
  exact storeResult_ok_of_run_eq_none hr (freshInstance n sp ap)

theorem execSetPixelWith_success (P : Params) {s : State} {x : Instance} {index : Nat} (r g b : Byte) (hs : s.Idle)
    (hi : s.inst = some x) (h : index < x.n) :
    execSetPixelWith P index r g b s =
      .next { s with
        inst := some { x with pstore := Memory.writePixel P (setPixelBase P x) index (colour r g b) },
        status := some .ok, cause := none } := by
  rw [execSetPixelWith, accept_idle s _ hs.1 hs.2, withInstance_some s _ x hi,
    if_pos (by simpa [Instance.hasPixel] using h), setOnePixel_ok P x index _ h, storeResult_ok_of_run_eq_none hs.2]

theorem execSetMultiWith_success (P : Params) {s : State} {x : Instance} (indices : List Nat) (r g b : Byte) (hs : s.Idle)
    (hi : s.inst = some x) :
    execSetMultiWith P indices r g b s =
      .next { s with
        inst := some { x with
          pstore := Memory.writeListed P (Memory.clearBelow P x.pstore x.n) x.n (colour r g b) indices },
        status := some .ok, cause := none } := by
  rw [execSetMultiWith, accept_idle s _ hs.1 hs.2, withInstance_some s _ x hi]
  simp only [Instance.clearPixels_ok P x x.n (Nat.le_refl _), Instance.setListed_ok]
  exact storeResult_ok_of_run_eq_none hs.2 _

theorem execClearWith_success (P : Params) {s : State} {x : Instance} (hs : s.Idle) (hi : s.inst = some x) :
    execClearWith P s =
      .next { s with
        inst := some { x with pstore := Memory.clearBelow P x.pstore x.n }, status := some .ok, cause := none } := by
  rw [execClearWith, accept_idle s _ hs.1 hs.2, withInstance_some s _ x hi,
    Instance.clearPixels_ok P x x.n (Nat.le_refl _), storeResult_ok_of_run_eq_none hs.2]

/-- The channel bytes after SET_MULTI: the colour where the pixel is listed, dark elsewhere. -/
theorem read_setMulti_channel (P : Params) (m : Memory) (n : Nat) (v : Nat → Byte) (indices : List Nat) {i c : Nat}
    (hi : i < n) (hc : c < P.channels) :
    Memory.read (Memory.writeListed P (Memory.clearBelow P m n) n v indices) (channelOffset P i c) =
      if i ∈ indices then v c else 0x00#8 := by
  rw [Memory.read_writeListed_channel P _ n v indices i c hi hc, Memory.read_clearBelow, if_pos (channelOffset_lt P hi hc)]

/-- SET_MULTI leaves every offset the store does not have. -/
theorem read_setMulti_outside (P : Params) (m : Memory) (n : Nat) (v : Nat → Byte) (indices : List Nat) {a : Nat}
    (ha : P.channels * n ≤ a) :
    Memory.read (Memory.writeListed P (Memory.clearBelow P m n) n v indices) a = Memory.read m a := by
  rw [Memory.read_writeListed_outside P _ n v indices a ha, Memory.read_clearBelow, if_neg (Nat.not_lt.2 ha)]

/-- Settles O56: each command's next state, and the laws of the memory it leaves. -/
theorem pixelStoreCommandsForEveryParameterValue : Obligations.PixelStoreCommandsForEveryParameterValue := by
  intro P s r g b hs
  refine ⟨⟨rfl, rfl, rfl⟩, fun n sp ap hi hp hn ha => ?_, fun x hi => ⟨fun index hmode hlt => ?_, fun indices => ?_, ?_⟩⟩
  · exact ⟨freshInstance n sp ap, rfl, rfl, rfl, fun _ => rfl,
      execInitWith_success P hs hi hp (Nat.ne_of_gt hn) ha⟩
  · have hbase : setPixelBase P x = x.pstore := by rw [setPixelBase, hmode]; rfl
    refine ⟨_, execSetPixelWith_success P r g b hs hi hlt, rfl, rfl, rfl, fun c hc => ?_, fun a ha => ?_⟩
    · rw [Instance.ch, Memory.read_writePixel_channel P _ index _ index c hc, if_pos rfl]
    · rw [Memory.read_writePixel_other P _ index _ a ha, hbase]
  · exact ⟨_, execSetMultiWith_success P indices r g b hs hi, rfl, rfl, rfl,
      fun _ _ => read_setMulti_channel P x.pstore x.n _ indices, fun _ => read_setMulti_outside P x.pstore x.n _ indices⟩
  · refine ⟨_, execClearWith_success P hs hi, rfl, rfl, rfl, fun a ha => ?_, fun a ha => ?_⟩
    · rw [Memory.read_clearBelow, if_pos ha]
    · rw [Memory.read_clearBelow, if_neg (Nat.not_lt.2 ha)]

/-! ### The shows (R170, R175) -/

/-- SHOW_SYNC with an OK for every call, a show of no call included. -/
theorem execShowSyncWith_success (P : Params) {s : State} {x : Instance} {es : List PortEvent} (hs : s.Idle)
    (hi : s.inst = some x) (hp : x.syncEn = true)
    (hes : s.portEvents = List.replicate (callList P x .sync).length .ok ++ es) :
    execShowSyncWith P s =
      .next { s with
        trace := s.trace ++ entries .sync .ok (callList P x .sync), portEvents := es, status := some .ok, cause := none } := by
  rcases execShowSync_idle_cases P s hs.1 hs.2 with ⟨hn, -⟩ | ⟨y, hy, hoff, -⟩ | ⟨y, hy, -, hnil, e⟩ | ⟨y, hy, -, hlen, e⟩
  · simp [hi] at hn
  all_goals obtain rfl : x = y := Option.some.inj (hi.symm.trans hy)
  · simp [hp] at hoff
  · rw [hnil] at hes ⊢
    rw [e, State.complete, State.endCommand_of_run_eq_none hs.2]
    simp [entries, ← show s.portEvents = es from hes]
  · rw [e, hes, runShow_all_ok P x .sync s hi es hlen, shownState_of_run_eq_none P x .sync hs.2]

/-- SHOW_ASYNC of at least one pixel, with storage and an OK for every call. -/
theorem execShowAsyncWith_success (P : Params) {s : State} {x : Instance} {es : List PortEvent} (hs : s.Idle)
    (hi : s.inst = some x) (hp : x.asyncEn = true) (hn : x.n ≠ 0) (ha : (s.alloc (x.frameBytes P)).1 = true)
    (hes : s.portEvents = List.replicate (callList P x .async).length .ok ++ es) :
    execShowAsyncWith P s =
      .next { (s.alloc (x.frameBytes P)).2 with
        trace := s.trace ++ entries .async .ok (callList P x .async), portEvents := es, status := some .ok,
        cause := none } := by
  have hr : (s.alloc (x.frameBytes P)).2.run = none := (State.alloc_run ..).trans hs.2
  rw [execShowAsyncWith_idle P s x hs.1 hs.2 hi hp hn ha, hes,
    runShow_all_ok P x .async _ ((State.alloc_inst ..).trans hi) es (Nat.succ_pos _),
    shownState_of_run_eq_none P x .async hr, State.alloc_trace]

theorem entries_asyncCalls (P : Params) (x : Instance) (a : Answer) :
    entries .async a (asyncCalls P x) =
      ⟨.async, dataStream P x, a⟩ :: List.replicate P.resetBytes ⟨.async, [P.resetByte], a⟩ := by
  simp [entries, asyncCalls, resetCalls]

/-- Settles O54: both shows with an OK for every call, and the concatenation of the call lists. -/
theorem showsSucceedForEveryParameterValue : Obligations.ShowsSucceedForEveryParameterValue := by
  intro P s x es hs hi hn
  refine ⟨fun hp hes => ?_, fun hp ha hes => ?_, syncCalls_flatten P x, rfl⟩
  · exact execShowSyncWith_success P hs hi hp ((syncCalls_length P x).symm ▸ hes)
  · rw [← entries_asyncCalls P x .ok]
    exact execShowAsyncWith_success P hs hi hp (Nat.ne_of_gt hn) ha ((asyncCalls_length P x).symm ▸ hes)

end Sys2Proof.Machine
end

section
/-! SUPPORT. Which step the machine takes, for any parameter values: no command stops it without FAULT, and a step is what its fetch
says. -/

namespace Sys2Proof.Machine

open Sys2Proof.Config (Params)

/-! ### Every command takes a step -/

/-- A show that waits runs through any events to a next state. -/
theorem runShow_waitState_takes_step (P : Params) {x : Instance} {port : Port} {s : State} (hi : s.inst = some x)
    (es : List PortEvent) {k : Nat} (hk : k < (callList P x port).length) :
    ∃ t, runShow P es (waitState P x port s k) = .next t := by
  rcases runShow_cases P x port s hi es k hk with ⟨_, _, _, h⟩ | ⟨_, _, _, h⟩ | ⟨_, h⟩
  all_goals exact ⟨_, h⟩

theorem execShowSyncWith_takes_step (P : Params) {s : State} (hs : s.Idle) : ∃ t, execShowSyncWith P s = .next t := by
  rcases execShowSync_idle_cases P s hs.1 hs.2 with ⟨-, e⟩ | ⟨_, -, -, e⟩ | ⟨_, -, -, -, e⟩ | ⟨x, hi, -, hlen, e⟩
  · exact ⟨_, e⟩
  · exact ⟨_, e⟩
  · exact ⟨_, e⟩
  · rw [e]; exact runShow_waitState_takes_step P hi _ hlen

theorem execShowAsyncWith_takes_step (P : Params) {s : State} (hs : s.Idle) : ∃ t, execShowAsyncWith P s = .next t := by
  rcases execShowAsync_idle_cases P s hs.1 hs.2 with
    ⟨-, e⟩ | ⟨_, -, -, e⟩ | ⟨_, -, -, -, e⟩ | ⟨_, -, -, -, -, e⟩ | ⟨x, hi, -, -, -, e⟩
  · exact ⟨_, e⟩
  · exact ⟨_, e⟩
  · exact ⟨_, e⟩
  · exact ⟨_, e⟩
  · rw [e]; exact runShow_waitState_takes_step P ((State.alloc_inst ..).trans hi) _ (Nat.succ_pos _)

/-- Without FAULT every command takes a step, from any state (R206, R211). -/
theorem execWith_takes_step (P : Params) (i : Instr) {s : State} (hf : s.fault = .none) : ∃ t, execWith P i s = .next t := by
  by_cases hb : s.busy = true
  · obtain ⟨body, hbody⟩ := execWith_eq_accept P i
    exact ⟨_, (hbody s).trans (accept_busy s _ hf hb)⟩
  · have hr : s.run = none := (State.busy_eq_false s).1 (Bool.eq_false_iff.2 hb)
    cases hshow : isShow i with
    | false =>
      obtain ⟨_, _, _, _, h, -⟩ := execWith_mutator_cases P i s hshow hf hr
      exact ⟨_, h⟩
    | true =>
      obtain rfl | rfl := (isShow_eq_true i).1 hshow
      · exact execShowSyncWith_takes_step P ⟨hf, hr⟩
      · exact execShowAsyncWith_takes_step P ⟨hf, hr⟩

/-- Without FAULT an illegal command takes a step too (R87, R211). -/
theorem execIllegal_takes_step {s : State} (hf : s.fault = .none) : ∃ t, execIllegal s = .next t := by
  rcases accept_cases s (.next (s.raise .illegalCommand)) with ⟨h, -⟩ | ⟨-, -, h⟩ | ⟨-, -, h⟩
  · simp [hf] at h
  · exact ⟨_, h⟩
  · exact ⟨_, h⟩

theorem execIllegal_idle {s : State} (hs : s.Idle) :
    execIllegal s = .next { s with status := some .err, cause := some .illegalCommand } := by
  rw [execIllegal, accept_idle s _ hs.1 hs.2, State.raise, State.endCommand_of_run_eq_none hs.2, statusOf_some]

/-! ### What a step takes up -/

/-- An idle block reads its command stream, unless that is no command. -/
theorem fetchWith_idle {P : Params} {s : State} (hs : s.Idle) (hd : decodeWith P s.commands ≠ .truncated) :
    fetchWith P s = fetchBytes P s.commands fun rest => { s with commands := rest } := by
  obtain ⟨hf, hr⟩ := hs
  cases hc : s.commands with
  | nil => exact absurd (by rw [hc]; rfl) hd
  | cons b bs => simp only [fetchWith, hf, hr, hc]

/-- A waiting show reads the byte string presented at its wait. -/
theorem fetchWith_presented (P : Params) {s : State} {run : ShowRun} {bytes : List Byte} {es : List PortEvent}
    (hf : s.fault = .none) (hr : s.run = some run) (hp : s.portEvents = .command bytes :: es) :
    fetchWith P s = fetchBytes P bytes fun _ => { s with portEvents := es } := by
  simp only [fetchWith, hf, hr, hp]

/-- A waiting show takes up an answer. -/
theorem fetchWith_answered (P : Params) {s : State} {run : ShowRun} {e : PortEvent} {es : List PortEvent}
    (hf : s.fault = .none) (hr : s.run = some run) (hp : s.portEvents = e :: es) (he : e = .ok ∨ e = .fail) :
    fetchWith P s = .answered := by
  rcases he with rfl | rfl
  · simp only [fetchWith, hf, hr, hp]
  · simp only [fetchWith, hf, hr, hp]

theorem fetchBytes_command {P : Params} {bytes rest : List Byte} {i : Instr} (taken : List Byte → State)
    (h : decodeWith P bytes = .command i rest) : fetchBytes P bytes taken = .command i (taken rest) := by
  simp only [fetchBytes, h]

theorem fetchBytes_illegal {P : Params} {bytes rest : List Byte} {why : Reject} (taken : List Byte → State)
    (h : decodeWith P bytes = .illegal why rest) : fetchBytes P bytes taken = .illegal (taken rest) := by
  simp only [fetchBytes, h]

/-! ### What a step does with it -/

theorem stepWith_of_fetch {P : Params} {s : State} {f : Fetched} (h : fetchWith P s = f) :
    stepWith P s = stepBy (execWith P) (resumeShowWith P) s f := congrArg _ h

/-- At an idle block a step is what the decoded command does. -/
theorem stepWith_idle_command {P : Params} {s : State} {i : Instr} {rest : List Byte} (hs : s.Idle)
    (hd : decodeWith P s.commands = .command i rest) : stepWith P s = execWith P i { s with commands := rest } :=
  stepWith_of_fetch ((fetchWith_idle hs (by simp [hd])).trans (fetchBytes_command _ hd))

/-- At an idle block an illegal command is an error and nothing else (R87). -/
theorem stepWith_idle_illegal {P : Params} {s : State} {why : Reject} {rest : List Byte} (hs : s.Idle)
    (hd : decodeWith P s.commands = .illegal why rest) :
    stepWith P s = .next { s with commands := rest, status := some .err, cause := some .illegalCommand } := by
  have hstep : stepWith P s = execIllegal { s with commands := rest } :=
    stepWith_of_fetch ((fetchWith_idle hs (by simp [hd])).trans (fetchBytes_illegal _ hd))
  exact hstep.trans (execIllegal_idle (s := { s with commands := rest }) hs)

/-- At a wait a step is what the presented command does. -/
theorem stepWith_presented_command {P : Params} {s : State} {run : ShowRun} {bytes rest : List Byte} {es : List PortEvent}
    {i : Instr} (hf : s.fault = .none) (hr : s.run = some run) (hp : s.portEvents = .command bytes :: es)
    (hd : decodeWith P bytes = .command i rest) : stepWith P s = execWith P i { s with portEvents := es } :=
  stepWith_of_fetch ((fetchWith_presented P hf hr hp).trans (fetchBytes_command _ hd))

/-- An illegal command presented at a wait sets FAULT (log 23). -/
theorem stepWith_presented_illegal {P : Params} {s : State} {run : ShowRun} {bytes rest : List Byte} {es : List PortEvent}
    {why : Reject} (hf : s.fault = .none) (hr : s.run = some run) (hp : s.portEvents = .command bytes :: es)
    (hd : decodeWith P bytes = .illegal why rest) :
    stepWith P s = .next { s with portEvents := es, fault := .concurrentAccess } := by
  have hstep : stepWith P s = execIllegal { s with portEvents := es } :=
    stepWith_of_fetch ((fetchWith_presented P hf hr hp).trans (fetchBytes_illegal _ hd))
  exact hstep.trans (accept_busy { s with portEvents := es } _ hf (by simp [State.busy, hr]))

/-- Taking up a command's bytes keeps FAULT. -/
theorem Taken.fault {s u : State} (hu : Taken s u) : u.fault = s.fault := by
  obtain ⟨-, rest, rfl⟩ | ⟨-, bytes, es, -, rfl⟩ := hu
  · rfl
  · rfl

/-- From a legal state without FAULT only a byte string that is no command stops the machine (R80). -/
theorem stepWith_takes_step_or_truncated {P : Params} {s : State} (h : s.InvWith P) (hf : s.fault = .none) :
    (∃ t, stepWith P s = .next t) ∨ (fetchWith P s = .truncated ∧ stepWith P s = .refused .truncatedCommand) := by
  rcases fetchWith_cases P s with ⟨hdead, -⟩ | ⟨-, e | e | ⟨e, hb, -⟩ | ⟨u, ⟨i, e, -⟩ | e, hu⟩⟩
  · simp [hf] at hdead
  · exact .inl ⟨s, stepWith_of_fetch e⟩
  · exact .inr ⟨e, stepWith_of_fetch e⟩
  · obtain ⟨t, ht, -⟩ := runShow_inv P s.portEvents s h hf hb
    exact .inl ⟨t, (stepWith_of_fetch e).trans ht⟩
  · obtain ⟨t, ht⟩ := execWith_takes_step P i (hu.fault.trans hf)
    exact .inl ⟨t, (stepWith_of_fetch e).trans ht⟩
  · obtain ⟨t, ht⟩ := execIllegal_takes_step (hu.fault.trans hf)
    exact .inl ⟨t, (stepWith_of_fetch e).trans ht⟩

/-- Settles O57: the rules above, one for each kind of input. -/
theorem machineRunsForEveryParameterValue : Obligations.MachineRunsForEveryParameterValue :=
  fun P _ hf =>
    ⟨fun i => execWith_takes_step P i hf,
      fun hr => ⟨fun _ _ => stepWith_idle_command ⟨hf, hr⟩, fun _ _ => stepWith_idle_illegal ⟨hf, hr⟩⟩,
      fun _ _ _ hr hp => ⟨fun _ _ => stepWith_presented_command hf hr hp, fun _ _ => stepWith_presented_illegal hf hr hp⟩,
      fun _ _ _ hr hp he => stepWith_of_fetch (fetchWith_answered P hf hr hp he),
      fun h => stepWith_takes_step_or_truncated h hf⟩

end Sys2Proof.Machine
end

section
/-! SUPPORT. The block after power-on reset, and what a step keeps of the block's state (10_state.md): the invariant, the
configuration, and TRACE, which only grows. -/

namespace Sys2Proof.Machine

open Sys2Proof.Config (Params)

/-! ### Power-on reset (R37, R230) -/

/-- The block after reset is legal for any parameter values: it holds no store, no show and no call. -/
theorem State.reset_inv (P : Params) : State.reset.InvWith P :=
  ⟨nofun, nofun, fun _ => nofun, nofun, nofun, .inl ⟨rfl, rfl⟩⟩

/-- Settles O10: `State.reset_inv` at this hardware's values. -/
theorem resetMeetsTheInvariant : Obligations.ResetMeetsTheInvariant := State.reset_inv Config.hw

/-- An idle block to which nothing has been delivered waits (R230). -/
theorem step_idle_waits {s : State} (hs : s.Idle) (hc : s.commands = []) : step s = .next s := by
  have hfetch : fetchWith Config.hw s = .wait := by simp only [fetchWith, hs.1, hs.2, hc]
  rw [← stepWith_hw]
  exact stepWith_of_fetch hfetch

/-- Settles O11: the fields of the reset state, and the wait of an idle block. -/
theorem resetStateIsAsSpecified : Obligations.ResetStateIsAsSpecified :=
  ⟨rfl, rfl, rfl, rfl, rfl, rfl, rfl, rfl, rfl, step_idle_waits ⟨rfl, rfl⟩ rfl⟩

/-! ### The allocator (R30) -/

/-- A draw with no script left takes the free value. -/
theorem State.alloc_nil (s : State) (n : Nat) (h : s.allocDraws = []) :
    s.alloc n = (Config.allocAnswer s.allocCount n, { s with allocCount := s.allocCount + 1 }) := by
  simp only [State.alloc, h]

/-- Settles O14: a draw from the script, and one without. -/
theorem allocatorDrawsTheScriptThenTheFreeValue : Obligations.AllocatorDrawsTheScriptThenTheFreeValue :=
  ⟨State.alloc_cons, State.alloc_nil⟩

/-! ### The invariant -/

/-- Settles O9: the step of this hardware is the parametric one, which keeps the invariant. -/
theorem everyStepKeepsTheInvariant : Obligations.EveryStepKeepsTheInvariant := by
  intro s t h ht
  rw [← stepWith_hw] at ht
  exact stepWith_inv h ht

/-! ### What a command keeps -/

/-- What a command keeps from any state: the configuration while it exists (R22 to R24), and every entry of TRACE (R34),
which it can only extend. -/
structure CommandKeeps (s t : State) : Prop where
  config : ∀ x ∈ s.inst, ∀ y ∈ t.inst, y.n = x.n ∧ y.syncEn = x.syncEn ∧ y.asyncEn = x.asyncEn
  trace : s.trace <+: t.trace

/-- Where CONFIG and PSTORE are untouched, so is the configuration. -/
theorem config_of_inst_eq {s t : State} (h : t.inst = s.inst) :
    ∀ x ∈ s.inst, ∀ y ∈ t.inst, y.n = x.n ∧ y.syncEn = x.syncEn ∧ y.asyncEn = x.asyncEn := by
  rw [h]
  exact (InstanceChange.refl Config.hw s.inst none).config

theorem CommandKeeps.of_inst_eq {s t : State} (hi : t.inst = s.inst) (ht : s.trace <+: t.trace) : CommandKeeps s t :=
  ⟨config_of_inst_eq hi, ht⟩

/-- A command's end keeps both. -/
theorem CommandKeeps.endCommand (s : State) (c : Option Cause) : CommandKeeps s (s.endCommand c) :=
  .of_inst_eq rfl (List.prefix_refl _)

/-- A show begun at `s` extends TRACE and leaves CONFIG and PSTORE, whatever the events. -/
theorem runShow_waitState_keeps {P : Params} {x : Instance} {port : Port} {s t : State} {es : List PortEvent} {k : Nat}
    (hi : s.inst = some x) (hk : k < (callList P x port).length)
    (ht : runShow P es (waitState P x port s k) = .next t) : CommandKeeps s t := by
  rcases runShow_cases P x port s hi es k hk with ⟨_, _, -, e⟩ | ⟨_, _, -, e⟩ | ⟨_, e⟩ <;> rw [e] at ht <;> cases ht
  · exact .of_inst_eq rfl ⟨_, (List.append_assoc ..).symm⟩
  · exact .of_inst_eq rfl ⟨_, (List.append_assoc ..).symm⟩
  · exact .of_inst_eq rfl ⟨_, rfl⟩

theorem execShowSyncWith_keeps {P : Params} {s t : State} (hs : s.Idle) (ht : execShowSyncWith P s = .next t) :
    CommandKeeps s t := by
  rcases execShowSync_idle_cases P s hs.1 hs.2 with ⟨-, e⟩ | ⟨_, -, -, e⟩ | ⟨_, -, -, -, e⟩ | ⟨_, hi, -, hlen, e⟩ <;>
    rw [e] at ht
  · cases ht; exact .endCommand ..
  · cases ht; exact .endCommand ..
  · cases ht; exact .endCommand ..
  · exact runShow_waitState_keeps hi hlen ht

theorem execShowAsyncWith_keeps {P : Params} {s t : State} (hs : s.Idle) (ht : execShowAsyncWith P s = .next t) :
    CommandKeeps s t := by
  rcases execShowAsync_idle_cases P s hs.1 hs.2 with
    ⟨-, e⟩ | ⟨_, -, -, e⟩ | ⟨_, -, -, -, e⟩ | ⟨_, -, -, -, -, e⟩ | ⟨x, hi, -, -, -, e⟩ <;> rw [e] at ht
  · cases ht; exact .endCommand ..
  · cases ht; exact .endCommand ..
  · cases ht; exact .endCommand ..
  · cases ht; exact .of_inst_eq (by simp) (by simp)
  · obtain ⟨config, trace⟩ := runShow_waitState_keeps (port := .async) ((State.alloc_inst ..).trans hi) (Nat.succ_pos _) ht
    rw [State.alloc_inst] at config
    rw [State.alloc_trace] at trace
    exact ⟨config, trace⟩

theorem execWith_mutator_keeps {P : Params} {i : Instr} {s t : State} (hi : isShow i = false) (hs : s.Idle)
    (ht : execWith P i s = .next t) : CommandKeeps s t := by
  obtain ⟨_, _, _, _, hexec, -, -, config⟩ := execWith_mutator_cases P i s hi hs.1 hs.2
  rw [hexec] at ht
  cases ht
  exact ⟨config, List.prefix_refl _⟩

theorem execWith_keeps {P : Params} {i : Instr} {s t : State} (ht : execWith P i s = .next t) : CommandKeeps s t := by
  rcases execWith_next_cases P i s t ht with ⟨-, -, rfl⟩ | hs
  · exact .of_inst_eq rfl (List.prefix_refl _)
  · cases hshow : isShow i with
    | false => exact execWith_mutator_keeps hshow hs ht
    | true =>
      obtain rfl | rfl := (isShow_eq_true i).1 hshow
      · exact execShowSyncWith_keeps hs ht
      · exact execShowAsyncWith_keeps hs ht

theorem execIllegal_keeps {s t : State} (ht : execIllegal s = .next t) : CommandKeeps s t := by
  rcases execIllegal_next_cases s t ht with ⟨-, rfl⟩ | ⟨-, rfl⟩
  · exact .of_inst_eq rfl (List.prefix_refl _)
  · exact .endCommand ..

/-- Taking up a command's bytes touches neither CONFIG, PSTORE nor TRACE. -/
theorem Taken.keeps {s u t : State} (hu : Taken s u) (h : CommandKeeps u t) : CommandKeeps s t := by
  obtain ⟨-, rest, rfl⟩ | ⟨-, bytes, es, -, rfl⟩ := hu
  · exact ⟨h.config, h.trace⟩
  · exact ⟨h.config, h.trace⟩

/-- A step resumes a waiting show, or keeps what a command keeps. -/
theorem stepWith_resumes_or_keeps {P : Params} {s t : State} (ht : stepWith P s = .next t) :
    (s.busy = true ∧ resumeShowWith P s = .next t) ∨ CommandKeeps s t := by
  obtain ⟨-, rfl | ⟨hb, hshow⟩ | ⟨u, ⟨i, hexec, -⟩ | hill, hu⟩⟩ := stepWith_next_cases P s t ht
  · exact .inr (.of_inst_eq rfl (List.prefix_refl _))
  · exact .inl ⟨hb, hshow⟩
  · exact .inr (hu.keeps (execWith_keeps hexec))
  · exact .inr (hu.keeps (execIllegal_keeps hill))

/-! ### The configuration (R22 to R25) -/

/-- No step changes the configuration while it exists. -/
theorem stepWith_config {P : Params} {s t : State} (ht : stepWith P s = .next t) :
    ∀ x ∈ s.inst, ∀ y ∈ t.inst, y.n = x.n ∧ y.syncEn = x.syncEn ∧ y.asyncEn = x.asyncEn := by
  rcases stepWith_resumes_or_keeps ht with ⟨-, hshow⟩ | hkeeps
  · exact config_of_inst_eq (runShow_next P _ s t hshow).1.inst
  · exact hkeeps.config

/-- Settles O17: `stepWith_config` at this hardware's values. -/
theorem configurationIsFixedByInit : Obligations.ConfigurationIsFixedByInit := by
  intro s t x y ht hx hy
  rw [← stepWith_hw] at ht
  exact stepWith_config ht x hx y hy

/-! ### TRACE (R34) -/

theorem traceGrows_of_prefix {es fs : List Entry} (h : es <+: fs) : traceGrows es fs := by
  obtain ⟨new, rfl⟩ := h
  exact ⟨new, .inl rfl⟩

/-- Answering a PENDING last entry and adding entries is growth. -/
theorem traceGrows_answerLast {es : List Entry} {e : Entry} {a : Answer} (hlast : es.getLast? = some e)
    (he : e.answer = .pending) (ha : a ≠ .pending) (new : List Entry) : traceGrows es (answerLast a es ++ new) := by
  have hes : es.dropLast ++ [e] = es := List.dropLast_append_getLast? e hlast
  refine ⟨new, .inr ⟨es.dropLast, e, a, hes.symm, he, ha, ?_⟩⟩
  rw [← answerLast_append, hes]

/-- In a legal state TRACE ends with the outstanding call of the show in progress. -/
theorem State.InvWith.last_pending {P : Params} {s : State} (h : s.InvWith P) (hb : s.busy = true) :
    ∃ e, s.trace.getLast? = some e ∧ e.answer = .pending := by
  obtain ⟨-, inProgress, -⟩ := h
  obtain ⟨run, hr⟩ := (State.busy_eq_true s).1 hb
  obtain ⟨_, -, -, hlast, -⟩ := inProgress run hr
  exact ⟨_, hlast, rfl⟩

/-- In a legal state a step makes TRACE grow, for any parameter values. -/
theorem stepWith_traceGrows {P : Params} {s t : State} (h : s.InvWith P) (ht : stepWith P s = .next t) :
    traceGrows s.trace t.trace := by
  rcases stepWith_resumes_or_keeps ht with ⟨hb, hshow⟩ | hkeeps
  · obtain ⟨e, hlast, he⟩ := h.last_pending hb
    obtain ⟨-, -, heq | ⟨a, new, ha, heq⟩⟩ := runShow_next P _ s t hshow
    · exact traceGrows_of_prefix (heq ▸ List.prefix_refl _)
    · exact heq ▸ traceGrows_answerLast hlast he ha new
  · exact traceGrows_of_prefix hkeeps.trace

/-- Settles O50: `stepWith_traceGrows` at this hardware's values. -/
theorem traceOnlyGrows : Obligations.TraceOnlyGrows := by
  intro s t h ht
  rw [← stepWith_hw] at ht
  exact stepWith_traceGrows h ht

end Sys2Proof.Machine
end

section
/-! SUPPORT. SEQ, SCRATCH and ABUF (R28, R31, R54, R55): the sequencer's order in the rule's numerals, and what a show shows of
them while it waits. -/

namespace Sys2Proof.Machine

open Sys2Proof.Config (Params)

/-- Settles O31: the positions of `posAfter_data`, `posAfter_reset` and `posAfter_end` at three channels of eight symbols. -/
theorem sequencerVisitsTheFixedOrder : Obligations.SequencerVisitsTheFixedOrder := by
  intro P n hC hS
  have hpos : 0 < P.symbolsPerByte := by omega
  have symbols : P.symbolsPerByte * (P.channels * n) = 24 * n := by rw [hC, hS]; omega
  refine ⟨fun p c k hp hc hk => ?_, fun j hj => ?_, fun i hi => ?_⟩
  · have hindex : P.symbolsPerByte * channelOffset P p c + (P.symbolsPerByte - 1 - k) = 24 * p + 8 * c + (7 - k) := by
      rw [channelOffset, hC, hS]; omega
    rw [← hindex]
    exact posAfter_data P hp (hC ▸ hc) (hS ▸ hk)
  · rw [← symbols]
    exact posAfter_reset P n hpos j hj
  · rw [← symbols] at hi
    exact posAfter_idle P (posAfter_end P n hpos) hi

/-! ### What a show in progress shows -/

/-- The views of a show that waits in the data phase. -/
theorem State.views_data {t : State} {port : Port} {p c k : Nat} {scratch abuf : Option (List Byte)}
    (h : t.run = some ⟨port, .data p c k, scratch, abuf⟩) :
    t.run.map ShowRun.pos = some (.data p c k) ∧ t.phase = .data ∧ t.scratch = scratch ∧ t.abuf = abuf := by
  simp [State.phase, State.scratch, State.abuf, h]

/-- The views of a show that waits in the reset phase. -/
theorem State.views_reset {t : State} {port : Port} {j : Nat} {scratch abuf : Option (List Byte)}
    (h : t.run = some ⟨port, .reset j, scratch, abuf⟩) :
    t.run.map ShowRun.pos = some (.reset j) ∧ t.phase = .reset ∧ t.scratch = scratch ∧ t.abuf = abuf := by
  simp [State.phase, State.scratch, State.abuf, h]

/-- The views of an idle block: no position, no buffer (R31). -/
theorem State.views_idle {t : State} (h : t.run = none) :
    t.run.map ShowRun.pos = none ∧ t.phase = .idle ∧ t.scratch = none ∧ t.abuf = none := by
  simp [State.phase, State.scratch, State.abuf, h]

/-! ### The waits of the shows -/

/-- SHOW_SYNC whose calls before call `k` were answered OK waits at call `k`. -/
theorem execShowSyncWith_waits (P : Params) {s : State} {x : Instance} {k : Nat} (hs : s.Idle) (hi : s.inst = some x)
    (hp : x.syncEn = true) (hk : k < (callList P x .sync).length) (hes : s.portEvents = List.replicate k .ok) :
    execShowSyncWith P s = .next { waitState P x .sync s k with portEvents := [] } := by
  rw [execShowSyncWith_idle P s x hs.1 hs.2 hi hp (Nat.zero_lt_of_lt hk), hes, runShow_waits P x .sync s hi k hk]

/-- SHOW_ASYNC of at least one pixel, with storage, whose calls before call `k` were answered OK waits at call `k`. -/
theorem execShowAsyncWith_waits (P : Params) {s : State} {x : Instance} {k : Nat} (hs : s.Idle) (hi : s.inst = some x)
    (hp : x.asyncEn = true) (hn : 0 < x.n) (ha : (s.alloc (x.frameBytes P)).1 = true)
    (hk : k < (callList P x .async).length) (hes : s.portEvents = List.replicate k .ok) :
    execShowAsyncWith P s =
      .next { waitState P x .async (s.alloc (x.frameBytes P)).2 k with portEvents := [] } := by
  rw [execShowAsyncWith_idle P s x hs.1 hs.2 hi hp (Nat.ne_of_gt hn) ha, hes,
    runShow_waits P x .async _ ((State.alloc_inst ..).trans hi) k hk]

/-- Settles O39: the show record at the wait of each call, and the views of it. -/
theorem transientBuffersWhileWaiting : Obligations.TransientBuffersWhileWaiting := by
  refine ⟨fun s x p c hs hi hp hpx hc hes => ?_, fun s x j hs hi hp hj hes => ?_,
    fun s x k hs hi hp hn ha hk hes => ?_, fun t ht => State.views_idle ((State.busy_eq_false t).1 ht)⟩
  · have hlt : channelOffset Config.hw p c < x.storeBytes Config.hw := channelOffset_lt Config.hw hpx hc
    have hcall : channelOffset Config.hw p c < (callList Config.hw x .sync).length := by
      rw [callList, syncCalls_length]; omega
    obtain ⟨t, ht, hrun⟩ : ∃ t, exec .showSync s = .next t ∧
        t.run = some (runAt Config.hw x .sync (channelOffset Config.hw p c)) :=
      ⟨_, execShowSyncWith_waits Config.hw hs hi hp hcall hes, rfl⟩
    rw [runAt_sync_data Config.hw x p c hpx hc] at hrun
    exact ⟨t, ht, State.views_data hrun⟩
  · have hcall : x.storeBytes Config.hw + j < (callList Config.hw x .sync).length := by
      rw [callList, syncCalls_length]; exact Nat.add_lt_add_left hj _
    obtain ⟨t, ht, hrun⟩ : ∃ t, exec .showSync s = .next t ∧
        t.run = some (runAt Config.hw x .sync (x.storeBytes Config.hw + j)) :=
      ⟨_, execShowSyncWith_waits Config.hw hs hi hp hcall hes, rfl⟩
    have hstore : 0 < x.storeBytes Config.hw ↔ 0 < x.n := Nat.mul_pos_iff_of_pos_left (by decide)
    simp only [runAt_sync_reset, hstore] at hrun
    exact ⟨t, ht, State.views_reset hrun⟩
  · have hcall : k < (callList Config.hw x .async).length := by
      rw [callList, asyncCalls_length]; exact hk
    obtain ⟨t, ht, hrun⟩ : ∃ t, exec .showAsync s = .next t ∧ t.run = some (runAt Config.hw x .async k) :=
      ⟨_, execShowAsyncWith_waits Config.hw hs hi hp hn ha hcall hes, rfl⟩
    rw [runAt_async] at hrun
    cases k with
    | zero =>
      obtain ⟨pos, phase, scratch, abuf⟩ := State.views_data hrun
      exact ⟨t, ht, pos, phase, abuf, scratch⟩
    | succ j =>
      obtain ⟨pos, phase, scratch, abuf⟩ := State.views_reset hrun
      exact ⟨t, ht, pos, phase, abuf, scratch⟩

end Sys2Proof.Machine
end

section
/-! SUPPORT. The store across commands and steps (20_memory.md): what each step runs (R63), what the two shows do from an idle block,
said once for both, so that a resumed show is the uninterrupted one and the entries follow the call list (R64), and how long PSTORE
lives (R53). -/

namespace Sys2Proof.Machine

open Sys2Proof.Config (Params)

/-! ### The step -/

/-- Settles O6: the rules of `stepWith` for each kind of input, at this hardware's values. -/
theorem stepRunsTheDecodedCommand : Obligations.StepRunsTheDecodedCommand := by
  unfold Obligations.StepRunsTheDecodedCommand
  rw [← stepWith_hw, ← execWith_hw]
  exact ⟨fun _ _ _ hs hd => stepWith_idle_command hs hd,
    fun _ _ _ _ _ _ hf hr hp hd => stepWith_presented_command hf hr hp hd,
    fun _ _ _ _ hf hr hp he => stepWith_of_fetch (fetchWith_answered Config.hw hf hr hp he),
    fun _ _ _ _ _ _ hf hr hp hd => stepWith_presented_illegal hf hr hp hd⟩

/-! ### Both shows from an idle block -/

/-- The show command of a port (R170, R175). -/
def showInstr : Port → Instr
  | .sync => .showSync
  | .async => .showAsync

theorem isShow_iff_showInstr (i : Instr) : isShow i = true ↔ ∃ port, i = showInstr port := by
  rw [isShow_eq_true]
  constructor
  · rintro (rfl | rfl)
    · exact ⟨.sync, rfl⟩
    · exact ⟨.async, rfl⟩
  · rintro ⟨port, rfl⟩
    cases port
    · exact .inl rfl
    · exact .inr rfl

/-- The state a show begins from: the allocator has been asked at most once (R30). -/
def Drawn (s u : State) : Prop := u = s ∨ ∃ n, u = (s.alloc n).2

theorem Drawn.inst {s u : State} (h : Drawn s u) : u.inst = s.inst := by
  obtain rfl | ⟨n, rfl⟩ := h
  · rfl
  · exact State.alloc_inst s n

theorem Drawn.trace {s u : State} (h : Drawn s u) : u.trace = s.trace := by
  obtain rfl | ⟨n, rfl⟩ := h
  · rfl
  · exact State.alloc_trace s n

/-- A draw does not read the port's events. -/
theorem State.alloc_of_portEvents (s : State) (es : List PortEvent) (n : Nat) :
    ({ s with portEvents := es } : State).alloc n = ((s.alloc n).1, { (s.alloc n).2 with portEvents := es }) := by
  obtain ⟨inst, run, status, cause, fault, trace, commands, portEvents, draws, count⟩ := s
  cases draws with
  | nil => rfl
  | cons a as => rfl

/-- A show that makes calls, begun at `s`: whatever events come, it runs through them from the wait of its first call. -/
structure Transmits (P : Params) (port : Port) (s u : State) (x : Instance) : Prop where
  inst : s.inst = some x
  call : 0 < (callList P x port).length
  calls : showCalls P x port = callList P x port
  runs : ∀ es, execWith P (showInstr port) { s with portEvents := es } = runShow P es (waitState P x port u 0)

/-- Everything SHOW_SYNC and SHOW_ASYNC can do at an idle state: end before the first call, or transmit. -/
theorem execWith_show_idle_cases (P : Params) (port : Port) {s : State} (hs : s.Idle) :
    ∃ u, Drawn s u ∧
      ((∃ c, execWith P (showInstr port) s = .next (u.endCommand c)) ∨ ∃ x, Transmits P port s u x) := by
  cases port with
  | sync =>
    refine ⟨s, .inl rfl, ?_⟩
    rcases execShowSync_idle_cases P s hs.1 hs.2 with ⟨-, e⟩ | ⟨_, -, -, e⟩ | ⟨_, -, -, -, e⟩ | ⟨x, hi, hp, hlen, -⟩
    · exact .inl ⟨_, e⟩
    · exact .inl ⟨_, e⟩
    · exact .inl ⟨_, e⟩
    · refine .inr ⟨x, hi, hlen, rfl, fun es => ?_⟩
      exact (execShowSyncWith_idle P { s with portEvents := es } x hs.1 hs.2 hi hp hlen).trans
        (runShow_portEvents P es es (waitState P x .sync s 0))
  | async =>
    rcases execShowAsync_idle_cases P s hs.1 hs.2 with
      ⟨-, e⟩ | ⟨_, -, -, e⟩ | ⟨_, -, -, -, e⟩ | ⟨_, -, -, -, -, e⟩ | ⟨x, hi, hp, hn, ha, -⟩
    · exact ⟨s, .inl rfl, .inl ⟨_, e⟩⟩
    · exact ⟨s, .inl rfl, .inl ⟨_, e⟩⟩
    · exact ⟨s, .inl rfl, .inl ⟨_, e⟩⟩
    · exact ⟨_, .inr ⟨_, rfl⟩, .inl ⟨_, e⟩⟩
    · refine ⟨_, .inr ⟨x.frameBytes P, rfl⟩, .inr ⟨x, hi, Nat.succ_pos _, if_neg hn, fun es => ?_⟩⟩
      have hdraw := State.alloc_of_portEvents s es (x.frameBytes P)
      have hrun := execShowAsyncWith_idle P { s with portEvents := es } x hs.1 hs.2 hi hp hn (by rw [hdraw]; exact ha)
      rw [hdraw] at hrun
      exact hrun.trans (runShow_portEvents P es es (waitState P x .async (s.alloc (x.frameBytes P)).2 0))

/-- A show that waits transmits. -/
theorem transmits_of_busy {P : Params} {port : Port} {s t : State} (hs : s.Idle)
    (ht : execWith P (showInstr port) s = .next t) (hb : t.busy = true) : ∃ u x, Transmits P port s u x := by
  obtain ⟨u, -, ⟨c, e⟩ | ⟨x, hx⟩⟩ := execWith_show_idle_cases P port hs
  · rw [e] at ht
    cases ht
    simp at hb
  · exact ⟨u, x, hx⟩

/-- A show that has run out of answers and is resumed with the rest ends as if it had had them all at once. -/
theorem execWith_show_append {P : Params} {port : Port} {s t : State} {a b : List PortEvent} (hs : s.Idle)
    (ha : ∀ e ∈ a, e = .ok ∨ e = .fail) (ht : execWith P (showInstr port) { s with portEvents := a } = .next t)
    (hb : t.busy = true) :
    execWith P (showInstr port) { s with portEvents := a ++ b } = resumeShowWith P { t with portEvents := b } := by
  obtain ⟨u, x, hx⟩ := transmits_of_busy (s := { s with portEvents := a }) hs ht hb
  have hwait : runShow P a (waitState P x port u 0) = .next t := (hx.runs a).symm.trans ht
  calc execWith P (showInstr port) { s with portEvents := a ++ b }
      = runShow P (a ++ b) (waitState P x port u 0) := hx.runs (a ++ b)
    _ = runShow P b t := runShow_append P a b _ t ha hwait hb
    _ = runShow P b { t with portEvents := b } := (runShow_portEvents P b b t).symm

/-- Settles O40: `execWith_show_append` at this hardware's values. -/
theorem resumedShowIsTheUninterruptedShow : Obligations.ResumedShowIsTheUninterruptedShow := by
  unfold Obligations.ResumedShowIsTheUninterruptedShow
  rw [← execWith_hw]
  intro i s t a b hshow hs ha ht hb
  obtain ⟨port, rfl⟩ := (isShow_iff_showInstr i).1 hshow
  exact execWith_show_append hs ha ht hb

/-! ### The entries of a show (R64, R202) -/

/-- Entries that follow a call list: its first calls, in order and on one port, every one but the last answered OK. -/
structure FollowsCalls (calls : List (List Byte)) (port : Port) (es : List Entry) : Prop where
  calls : es.map Entry.bytes <+: calls
  port : ∀ e ∈ es, e.port = port
  answered : ∀ e ∈ es.dropLast, e.answer = .ok

theorem FollowsCalls.nil (calls : List (List Byte)) (port : Port) : FollowsCalls calls port [] where
  calls := List.nil_prefix
  port := nofun
  answered := nofun

@[simp] theorem entries_map_bytes (port : Port) (a : Answer) (calls : List (List Byte)) :
    (entries port a calls).map Entry.bytes = calls := by
  simp [entries, Function.comp_def]

theorem mem_entries {port : Port} {a : Answer} {calls : List (List Byte)} {e : Entry} (h : e ∈ entries port a calls) :
    e.port = port ∧ e.answer = a := by
  obtain ⟨_, -, rfl⟩ := List.mem_map.1 h
  exact ⟨rfl, rfl⟩

/-- Every call answered OK. -/
theorem followsCalls_entries (port : Port) (calls : List (List Byte)) : FollowsCalls calls port (entries port .ok calls) where
  calls := by rw [entries_map_bytes]
  port := fun _ he => (mem_entries he).1
  answered := fun _ he => (mem_entries (List.mem_of_mem_dropLast he)).2

/-- The calls before call `k` answered OK, and call `k` with any answer. -/
theorem followsCalls_upTo (P : Params) (x : Instance) (port : Port) (a : Answer) {k : Nat}
    (hk : k < (callList P x port).length) :
    FollowsCalls (callList P x port) port
      (entries port .ok ((callList P x port).take k) ++ [⟨port, callAt P x port k, a⟩]) where
  calls := by
    have hbytes := congrArg (List.map Entry.bytes) (entries_take_succ P x port .ok k hk)
    rw [entries_map_bytes, List.map_append] at hbytes
    rw [List.map_append]
    exact hbytes ▸ List.take_prefix ..
  port := fun e he => by
    rcases List.mem_append.1 he with he | he
    · exact (mem_entries he).1
    · rw [List.mem_singleton.1 he]
  answered := fun e he => by
    rw [List.dropLast_concat] at he
    exact (mem_entries he).2

/-- The entries a show adds follow its call list, whatever the events. -/
theorem runShow_waitState_followsCalls {P : Params} {x : Instance} {port : Port} {u t : State} {es : List PortEvent}
    {k : Nat} (hi : u.inst = some x) (hk : k < (callList P x port).length)
    (ht : runShow P es (waitState P x port u k) = .next t) :
    ∃ new, t.trace = u.trace ++ new ∧ FollowsCalls (callList P x port) port new := by
  rcases runShow_cases P x port u hi es k hk with ⟨k', _, hk', e⟩ | ⟨k', _, hk', e⟩ | ⟨_, e⟩ <;> rw [e] at ht <;> cases ht
  · exact ⟨_, List.append_assoc .., followsCalls_upTo P x port .pending hk'⟩
  · exact ⟨_, List.append_assoc .., followsCalls_upTo P x port .fail hk'⟩
  · exact ⟨_, rfl, followsCalls_entries port _⟩

/-- Either show from an idle state, for any parameter values and whatever the draws. -/
theorem execWith_show_followsCalls {P : Params} {port : Port} {s t : State} {x : Instance} (hs : s.Idle)
    (hi : s.inst = some x) (ht : execWith P (showInstr port) s = .next t) :
    ∃ new, t.trace = s.trace ++ new ∧ FollowsCalls (showCalls P x port) port new := by
  obtain ⟨u, hu, ⟨c, e⟩ | ⟨y, hy⟩⟩ := execWith_show_idle_cases P port hs
  · rw [e] at ht
    cases ht
    exact ⟨[], by simp [hu.trace], .nil _ port⟩
  · obtain rfl : y = x := Option.some.inj (hy.inst.symm.trans hi)
    rw [hy.calls, ← hu.trace]
    exact runShow_waitState_followsCalls (hu.inst.trans hi) hy.call ((hy.runs s.portEvents).symm.trans ht)

/-- Settles O41: `execWith_show_followsCalls` for each show, at this hardware's values. -/
theorem transmitsFollowTheCallList : Obligations.TransmitsFollowTheCallList := by
  unfold Obligations.TransmitsFollowTheCallList
  rw [← execWith_hw]
  refine fun s t x hs hi => ⟨fun ht => ?_, fun ht => ?_⟩
  · obtain ⟨new, htrace, h⟩ := execWith_show_followsCalls (port := .sync) hs hi ht
    exact ⟨new, htrace, h.calls, h.port, h.answered⟩
  · obtain ⟨new, htrace, h⟩ := execWith_show_followsCalls (port := .async) hs hi ht
    exact ⟨new, htrace, h.calls, h.port, h.answered⟩

/-! ### The life of the store (R53) -/

/-- INIT that ends with OK brings the store into existence, zero-filled, with N and the ports as given. -/
theorem execInitWith_ok_inst {P : Params} {s t : State} {n : Nat} {sp ap : Bool} (hs : s.Idle)
    (ht : execInitWith P n sp ap s = .next t) (hok : t.status = some .ok) : t.inst = some (freshInstance n sp ap) := by
  rcases execInit_idle_cases P s n sp ap hs.1 hs.2 with ⟨c, _, _, e⟩ | ⟨-, -, _, _, e⟩ <;> rw [e] at ht <;> cases ht
  · simp [mutated] at hok
  · rfl

/-- A show never writes the store or the configuration, from any state: not where it sets FAULT, fails, waits or succeeds. -/
theorem execWith_show_inst {P : Params} {port : Port} {s t : State} (ht : execWith P (showInstr port) s = .next t) :
    t.inst = s.inst := by
  rcases execWith_next_cases P _ s t ht with ⟨-, -, rfl⟩ | hs
  · rfl
  · obtain ⟨u, hu, ⟨c, e⟩ | ⟨x, hx⟩⟩ := execWith_show_idle_cases P port hs
    · rw [e] at ht
      cases ht
      exact hu.inst
    · have hrun : runShow P s.portEvents (waitState P x port u 0) = .next t := (hx.runs s.portEvents).symm.trans ht
      exact (runShow_next P _ _ t hrun).1.inst.trans hu.inst

/-- After DEINIT there is no store, with or without one before (R118). -/
theorem execDeinit_inst {s t : State} (hs : s.Idle) (ht : execDeinit s = .next t) : t.inst = none := by
  rw [execDeinit, accept_idle s _ hs.1 hs.2] at ht
  cases hi : s.inst with
  | none =>
    rw [withInstance_none s _ hi] at ht
    cases ht
    exact hi
  | some x =>
    rw [withInstance_some s _ x hi] at ht
    cases ht
    rfl

/-- Settles O18: creation by INIT, the shows' frame, the end by DEINIT, and a length that is fixed as N is. -/
theorem storeLifetime : Obligations.StoreLifetime := by
  refine ⟨fun s t n sp ap hs ht hok => ?_, fun i s t hshow ht => ?_, fun s t hs ht => execDeinit_inst hs ht,
    fun s t x y ht hx hy => ?_⟩
  · exact ⟨freshInstance n sp ap, execInitWith_ok_inst hs ht hok, rfl, fun _ => rfl⟩
  · obtain ⟨port, rfl⟩ := (isShow_iff_showInstr i).1 hshow
    rw [← execWith_hw] at ht
    exact execWith_show_inst ht
  · obtain ⟨hn, -, -⟩ := configurationIsFixedByInit s t x y ht hx hy
    rw [Instance.storeBytes, hn, Instance.storeBytes]

end Sys2Proof.Machine
end

section
/-! SUPPORT. The encoding (30_encoding.md) on this hardware: bytes that follow do not change what the decoder reads, so that a
command cut short is no command; the illegal commands; and what each does to an idle block. -/

namespace Sys2Proof

open Sys2Proof.Config (Params)

/-! ### Bytes that follow -/

/-- A reading of a byte string, with more bytes after it. -/
def Decoded.append (more : List Byte) : Decoded → Decoded
  | .command i rest => .command i (rest ++ more)
  | .illegal why rest => .illegal why (rest ++ more)
  | .truncated => .truncated

theorem takeField_append {k : Nat} {bs : List Byte} {v : Nat} {rest : List Byte} (h : takeField k bs = some (v, rest))
    (more : List Byte) : takeField k (bs ++ more) = some (v, rest ++ more) := by
  obtain ⟨rfl, hv⟩ := takeField_eq_some h
  rw [List.append_assoc, takeField_littleEndian, Nat.mod_eq_of_lt hv]

theorem takeIndices_append {P : Params} {n : Nat} {bs : List Byte} {is : List Nat} {rest : List Byte}
    (h : takeIndices P n bs = some (is, rest)) (more : List Byte) :
    takeIndices P n (bs ++ more) = some (is, rest ++ more) := by
  induction n generalizing bs is with
  | zero =>
    cases h
    rfl
  | succ n ih =>
    rw [takeIndices] at h
    split at h
    · cases h
    · next i bs' hf =>
      split at h
      · cases h
      · next is' rest' hr =>
        cases h
        rw [takeIndices, takeField_append hf more]
        simp only [ih hr]

theorem checkOperands_append (P : Params) (i : Instr) (rest more : List Byte) :
    checkOperands P i (rest ++ more) = (checkOperands P i rest).append more := by
  unfold checkOperands
  split
  · rfl
  · rfl

theorem decodeInit_append {P : Params} {bs : List Byte} (h : decodeInit P bs ≠ .truncated) (more : List Byte) :
    decodeInit P (bs ++ more) = (decodeInit P bs).append more := by
  unfold decodeInit at h ⊢
  split at h
  · next n flags rest hf =>
    simp only [takeField_append hf more, List.cons_append]
    split
    · exact checkOperands_append P _ rest more
    · rfl
  · exact absurd rfl h

theorem decodePix_append {P : Params} {bs : List Byte} (h : decodePix P bs ≠ .truncated) (more : List Byte) :
    decodePix P (bs ++ more) = (decodePix P bs).append more := by
  unfold decodePix at h ⊢
  split at h
  · next index r g b rest hf =>
    simp only [takeField_append hf more, List.cons_append]
    exact checkOperands_append P _ rest more
  · exact absurd rfl h

theorem decodeMulti_append {P : Params} {bs : List Byte} (h : decodeMulti P bs ≠ .truncated) (more : List Byte) :
    decodeMulti P (bs ++ more) = (decodeMulti P bs).append more := by
  unfold decodeMulti at h ⊢
  split at h
  · next count fields hf =>
    split at h
    · next is r g b rest hi =>
      simp only [takeField_append hf more, takeIndices_append hi more, List.cons_append]
      exact checkOperands_append P _ rest more
    · exact absurd rfl h
  · exact absurd rfl h

theorem decodeOpcode_append {P : Params} {op : Byte} {bs : List Byte} (h : decodeOpcode P op bs ≠ .truncated)
    (more : List Byte) : decodeOpcode P op (bs ++ more) = (decodeOpcode P op bs).append more := by
  unfold decodeOpcode at h ⊢
  split at h
  · exact decodeInit_append h more
  · exact decodePix_append h more
  · exact decodeMulti_append h more
  all_goals rfl

/-- Once a byte string is read as a command or as an illegal one, the bytes after it do not change the reading (R80). -/
theorem decodeWith_append {P : Params} {bs : List Byte} (h : decodeWith P bs ≠ .truncated) (more : List Byte) :
    decodeWith P (bs ++ more) = (decodeWith P bs).append more := by
  cases bs with
  | nil => exact absurd rfl h
  | cons op bs => exact decodeOpcode_append h more

/-- A command cut short is no command (R80): were it read as anything, the whole command would be read so too, with bytes left
over. -/
theorem decodeWith_take_encodeWith {P : Params} {i : Instr} {n : Nat} (hw : i.wellFormedWith P = true)
    (hn : n < (encodeWith P i).length) : decodeWith P ((encodeWith P i).take n) = .truncated := by
  by_contra hread
  have hwhole : Decoded.command i [] = (decodeWith P ((encodeWith P i).take n)).append ((encodeWith P i).drop n) := by
    rw [← decodeWith_append hread, List.take_append_drop, ← decodeWith_encodeWith P i [] hw, List.append_nil]
  cases hd : decodeWith P ((encodeWith P i).take n) with
  | command j rest =>
    rw [hd, Decoded.append, Decoded.command.injEq] at hwhole
    have hdrop : (encodeWith P i).drop n = [] := (List.append_eq_nil_iff.1 hwhole.2.symm).2
    exact absurd (List.drop_eq_nil_iff.1 hdrop) (by omega)
  | illegal why rest => simp [hd, Decoded.append] at hwhole
  | truncated => exact hread hd

/-! ### Illegal commands (R87) -/

theorem decodeOpcode_reserved (P : Params) {op : Byte} (bs : List Byte) (h : op = 0x00#8 ∨ 0x08#8 ≤ op) :
    decodeOpcode P op bs = .illegal (.reservedOpcode op) bs := by
  have hop : op.toNat = 0 ∨ 8 ≤ op.toNat := h.imp (congrArg BitVec.toNat) BitVec.le_def.1
  unfold decodeOpcode
  split
  case h_8 => rfl
  all_goals omega

theorem decodeInit_reservedBits {P : Params} {bs : List Byte} {n : Nat} {flags : Byte} {rest : List Byte}
    (hf : takeField P.fieldBytes bs = some (n, flags :: rest)) (hrsv : flags.extractLsb' 2 6 ≠ 0#6) :
    decodeInit P bs = .illegal (.reservedBits flags) rest := by
  simp only [decodeInit, hf, if_neg hrsv]

/-! ### The encoding of this hardware -/

/-- Settles O1: the round trip for any parameter values, at this hardware's. -/
theorem decodeOfEncodeIsTheCommand : Obligations.DecodeOfEncodeIsTheCommand :=
  decodeWith_encodeWith Config.hw

/-- Settles O2: the inversion of the decoder for any parameter values, at this hardware's. -/
theorem decodedBytesAreTheEncoding : Obligations.DecodedBytesAreTheEncoding :=
  fun _ _ _ h => ⟨decodeWith_wellFormed h, decodeWith_eq_command h⟩

end Sys2Proof

namespace Sys2Proof.Machine

open Sys2Proof.Config (Params)

/-! ### Steps on illegal and truncated commands -/

/-- Settles O4: the two kinds of illegal command, and the step of an idle block on either. -/
theorem illegalCommandsEndWithError : Obligations.IllegalCommandsEndWithError := by
  refine ⟨fun op bs => decodeOpcode_reserved Config.hw bs, fun lo hi flags bs hrsv => ?_, fun s why rest hs hd => ?_⟩
  · have hfield : takeField Config.hw.fieldBytes (lo :: hi :: flags :: bs) =
        some (lo.toNat + 256 * (hi.toNat + 256 * 0), flags :: bs) := rfl
    exact decodeInit_reservedBits hfield hrsv
  · rw [← stepWith_hw]
    exact stepWith_idle_illegal hs hd

/-- An idle block refuses delivered bytes that are no command (R80). -/
theorem stepWith_idle_truncated {P : Params} {s : State} (hs : s.Idle) (hc : s.commands ≠ [])
    (hd : decodeWith P s.commands = .truncated) : stepWith P s = .refused .truncatedCommand := by
  obtain ⟨hf, hr⟩ := hs
  have hfetch : fetchWith P s = .truncated := by
    cases hcmd : s.commands with
    | nil => exact absurd hcmd hc
    | cons b bs =>
      rw [hcmd] at hd
      simp only [fetchWith, hf, hr, hcmd, fetchBytes, hd]
  exact stepWith_of_fetch hfetch

/-- Settles O5: an encoding cut short is truncated, and an idle block refuses it. -/
theorem truncatedCommandsHaveNoStep : Obligations.TruncatedCommandsHaveNoStep := by
  intro s i n hs hw hpos hn hc
  have htrunc : decodeWith Config.hw s.commands = .truncated := hc ▸ decodeWith_take_encodeWith hw hn
  have hdelivered : s.commands ≠ [] := by
    rw [← List.length_pos_iff, hc, List.length_take]
    omega
  rw [← stepWith_hw]
  exact stepWith_idle_truncated hs hdelivered htrunc

/-! ### Commands and steps without FAULT -/

/-- Settles O7: without FAULT every command takes a step, from legal states and others. -/
theorem everyCommandTakesAStep : Obligations.EveryCommandTakesAStep := by
  intro i s _ hf
  rw [← execWith_hw]
  exact execWith_takes_step Config.hw i hf

/-- Settles O8: the stops of the parametric step, at this hardware's values. -/
theorem onlyTruncationStopsTheMachine : Obligations.OnlyTruncationStopsTheMachine := by
  intro s h hf
  rw [← stepWith_hw]
  exact stepWith_takes_step_or_truncated h hf

end Sys2Proof.Machine
end

section
/-! SUPPORT. The pixel store commands (40_pixel_store.md) from an idle block: their error exits and INIT without pixels as record
updates of the state, the pixels they leave, and that none of them transmits. -/

namespace Sys2Proof.Machine

open Sys2Proof.Config (Params)

/-! ### Error exits at an idle block (R203, R205) -/

/-- At an idle block an error writes STATUS and its label and nothing else. -/
theorem State.raise_of_run_eq_none {s : State} (hr : s.run = none) (c : Cause) :
    s.raise c = { s with status := some .err, cause := some c } :=
  State.endCommand_of_run_eq_none hr (some c)

/-- While INST_VALID = 0 a command of R203's place 2 ends with NO_INSTANCE. -/
theorem accept_withInstance_none {s : State} (body : Instance → Outcome) (hs : s.Idle) (hi : s.inst = none) :
    accept s (withInstance s body) = .next { s with status := some .err, cause := some .noInstance } := by
  rw [accept_idle s _ hs.1 hs.2, withInstance_none s _ hi, State.raise_of_run_eq_none hs.2]

theorem execSetPixelWith_indexRange (P : Params) {s : State} {x : Instance} {index : Nat} (r g b : Byte) (hs : s.Idle)
    (hi : s.inst = some x) (h : x.n ≤ index) :
    execSetPixelWith P index r g b s = .next { s with status := some .err, cause := some .indexRange } := by
  rw [execSetPixelWith, accept_idle s _ hs.1 hs.2, withInstance_some s _ x hi, if_neg (by simpa [Instance.hasPixel] using h),
    State.raise_of_run_eq_none hs.2]

/-! ### INIT (R110, R111) -/

theorem execInitWith_alreadyInit (P : Params) {s : State} (n : Nat) (sp ap : Bool) (hs : s.Idle)
    (hv : s.instValid = true) :
    execInitWith P n sp ap s = .next { s with status := some .err, cause := some .alreadyInit } := by
  rw [execInitWith, accept_idle s _ hs.1 hs.2, if_pos hv, State.raise_of_run_eq_none hs.2]

theorem execInitWith_noPort (P : Params) {s : State} (n : Nat) (hs : s.Idle) (hv : s.instValid = false) :
    execInitWith P n false false s = .next { s with status := some .err, cause := some .noPort } := by
  rw [execInitWith, accept_idle s _ hs.1 hs.2, if_neg (by simp [hv]), if_pos ⟨rfl, rfl⟩, State.raise_of_run_eq_none hs.2]

/-- Past the checks of places 2 and 3 INIT asks for storage, unless there are no pixels. -/
theorem execInitWith_checked (P : Params) {s : State} (n : Nat) {sp ap : Bool} (hs : s.Idle) (hv : s.instValid = false)
    (hp : sp = true ∨ ap = true) :
    execInitWith P n sp ap s =
      if n = 0 then .next (createInstance n sp ap s)
      else if (s.alloc (P.channels * n)).1 = false then .next ((s.alloc (P.channels * n)).2.raise .allocFail)
      else .next (createInstance n sp ap (s.alloc (P.channels * n)).2) := by
  have hport : ¬ (sp = false ∧ ap = false) := by rcases hp with rfl | rfl <;> simp
  rw [execInitWith, accept_idle s _ hs.1 hs.2, if_neg (by simp [hv]), if_neg hport]
  rfl

theorem execInitWith_allocFail (P : Params) {s : State} {n : Nat} {sp ap : Bool} (hs : s.Idle) (hv : s.instValid = false)
    (hp : sp = true ∨ ap = true) (hn : n ≠ 0) (ha : (s.alloc (P.channels * n)).1 = false) :
    execInitWith P n sp ap s =
      .next { (s.alloc (P.channels * n)).2 with status := some .err, cause := some .allocFail } := by
  have hr : (s.alloc (P.channels * n)).2.run = none := (State.alloc_run ..).trans hs.2
  rw [execInitWith_checked P n hs hv hp, if_neg hn, if_pos ha, State.raise_of_run_eq_none hr]

/-- LED count 0 asks the allocator nothing. -/
theorem execInitWith_no_pixels (P : Params) {s : State} {sp ap : Bool} (hs : s.Idle) (hi : s.inst = none)
    (hp : sp = true ∨ ap = true) :
    execInitWith P 0 sp ap s =
      .next { s with inst := some (freshInstance 0 sp ap), status := some .ok, cause := none } := by
  rw [execInitWith_checked P 0 hs ((State.instValid_eq_false s).2 hi) hp, if_pos rfl]
  exact storeResult_ok_of_run_eq_none hs.2 (freshInstance 0 sp ap)

/-- INIT succeeds where INST_VALID = 0, a port is supplied and the storage is had. -/
theorem execInitWith_succeeds (P : Params) {s : State} {n : Nat} {sp ap : Bool} (hs : s.Idle) (hi : s.inst = none)
    (hp : sp = true ∨ ap = true) (ha : n = 0 ∨ (s.alloc (P.channels * n)).1 = true) :
    ∃ u, execInitWith P n sp ap s = .next u ∧ u.inst = some (freshInstance n sp ap) ∧ u.status = some .ok := by
  by_cases hn : n = 0
  · subst hn
    exact ⟨_, execInitWith_no_pixels P hs hi hp, rfl, rfl⟩
  · exact ⟨_, execInitWith_success P hs hi hp hn (ha.resolve_left hn), rfl, rfl⟩

/-- Settles O12: INIT without pixels and with storage, at this hardware's values. -/
theorem initCreatesAZeroedInstance : Obligations.InitCreatesAZeroedInstance := by
  intro s n sp ap hs hi hp
  refine ⟨freshInstance n sp ap, rfl, rfl, rfl, fun _ => rfl, ?_, fun hn ha => ?_⟩
  · rintro rfl
    exact execInitWith_no_pixels Config.hw hs hi hp
  · exact execInitWith_success Config.hw hs hi hp hn ha

/-- Settles O13: INIT's error exits, at this hardware's values. -/
theorem initErrorsChangeNothing : Obligations.InitErrorsChangeNothing := by
  intro s n sp ap hs
  refine ⟨fun hv => execInitWith_alreadyInit Config.hw n sp ap hs hv, ?_,
    fun hv hp hn ha => execInitWith_allocFail Config.hw hs hv hp hn ha⟩
  rintro hv rfl rfl
  exact execInitWith_noPort Config.hw n hs hv

/-! ### DEINIT (R118, R233) -/

theorem execDeinit_success {s : State} {x : Instance} (hs : s.Idle) (hi : s.inst = some x) :
    execDeinit s = .next { s with inst := none, status := some .ok, cause := none } := by
  rw [execDeinit, accept_idle s _ hs.1 hs.2, withInstance_some s _ x hi]
  exact congrArg Host.Outcome.next (State.endCommand_of_run_eq_none (s := { s with inst := none }) hs.2 none)

/-- Settles O15: the state DEINIT leaves is idle with INST_VALID = 0, so INIT may succeed in it. -/
theorem deinitLeavesNoInstance : Obligations.DeinitLeavesNoInstance := by
  intro s x hs hi
  refine ⟨{ s with inst := none, status := some .ok, cause := none }, execDeinit_success hs hi, rfl, fun n sp ap hp ha => ?_⟩
  obtain ⟨u, hu, hinst, hok⟩ :=
    execInitWith_succeeds Config.hw (s := { s with inst := none, status := some .ok, cause := none }) hs rfl hp ha
  exact ⟨u, freshInstance n sp ap, hu, hinst, rfl, hok⟩

/-! ### Pixels from their channel bytes (R51) -/

theorem Instance.pix_eq_of_ch {P : Params} (hC : P.channels = 3) {y : Instance} {i : Nat} {v : Nat → Byte}
    (h : ∀ c, c < P.channels → y.ch P i c = v c) : y.pix P i = ⟨v 0, v 1, v 2⟩ := by
  rw [Instance.pix, h 0 (by omega), h 1 (by omega), h 2 (by omega)]

/-- A pixel lit under a condition and dark otherwise. -/
theorem Instance.pix_eq_ite_of_ch {P : Params} (hC : P.channels = 3) {y : Instance} {i : Nat} {r g b : Byte} {lit : Prop}
    [Decidable lit] (h : ∀ c, c < P.channels → y.ch P i c = if lit then colour r g b c else 0x00#8) :
    y.pix P i = if lit then ⟨g, r, b⟩ else ⟨0x00#8, 0x00#8, 0x00#8⟩ := by
  by_cases hl : lit
  · simp only [if_pos hl] at h ⊢
    exact Instance.pix_eq_of_ch hC h
  · simp only [if_neg hl] at h ⊢
    exact Instance.pix_eq_of_ch (v := dark) hC h

/-! ### SET_PIXEL (R112, R113) -/

/-- Settles O19: the success and the error exit of SET_PIXEL, and the reads of the pixel's write. -/
theorem setPixelWritesOnlyItsPixel : Obligations.SetPixelWritesOnlyItsPixel := by
  intro s x index r g b hs hi
  refine ⟨fun hlt => ?_, execSetPixelWith_indexRange Config.hw r g b hs hi⟩
  refine ⟨_, execSetPixelWith_success Config.hw r g b hs hi hlt, rfl, rfl, rfl, ?_, fun a ha => ?_⟩
  · refine Instance.pix_eq_of_ch (v := colour r g b) rfl fun c hc => ?_
    rw [Instance.ch, Memory.read_writePixel_channel _ _ _ _ _ _ hc, if_pos rfl]
  · exact Memory.read_writePixel_other Config.hw _ index _ a ha

/-- In the reference mode SET_PIXEL leaves its pixel lit and every other dark. -/
theorem read_setPixel_clearing_channel (P : Params) (m : Memory) (index : Nat) (v : Nat → Byte) {n i c : Nat} (hi : i < n)
    (hc : c < P.channels) :
    Memory.read (Memory.writePixel P (Memory.clearBelow P m n) index v) (channelOffset P i c) =
      if i = index then v c else 0x00#8 := by
  rw [Memory.read_writePixel_channel P _ _ _ _ _ hc, Memory.read_clearBelow, if_pos (channelOffset_lt P hi hc)]

/-- In the reference mode SET_PIXEL leaves every offset the store does not have. -/
theorem read_setPixel_clearing_outside (P : Params) (m : Memory) {index n a : Nat} (v : Nat → Byte) (hlt : index < n)
    (ha : P.channels * n ≤ a) :
    Memory.read (Memory.writePixel P (Memory.clearBelow P m n) index v) a = Memory.read m a := by
  have hpixel : P.channels * index + P.channels ≤ P.channels * n := Nat.mul_le_mul_left P.channels hlt
  rw [Memory.read_writePixel_other P _ index v a (.inr (hpixel.trans ha)), Memory.read_clearBelow, if_neg (Nat.not_lt.2 ha)]

/-- Settles O20: the memory SET_PIXEL writes into is the cleared one, and the range check is the error exit's. -/
theorem setPixelReferenceModeClearsTheOthers : Obligations.SetPixelReferenceModeClearsTheOthers := by
  refine ⟨rfl, fun P s x index r g b hmode hs hi => ⟨fun hlt => ?_, execSetPixelWith_indexRange P r g b hs hi⟩⟩
  have hbase : setPixelBase P x = Memory.clearBelow P x.pstore x.n := if_pos hmode
  have hexec := execSetPixelWith_success P r g b hs hi hlt
  rw [hbase] at hexec
  have channels (i c : Nat) (hin : i < x.n) (hc : c < P.channels) :=
    read_setPixel_clearing_channel P x.pstore index (colour r g b) hin hc
  refine ⟨_, hexec, rfl, rfl, rfl, channels, fun hC i hin => ?_,
    fun a ha => read_setPixel_clearing_outside P x.pstore _ hlt ha⟩
  exact Instance.pix_eq_ite_of_ch hC (channels i · hin)

/-! ### SET_MULTI (R114, R115) -/

/-- Settles O21: the encoding, the error exit and the success of SET_MULTI, and the reads of the memory it leaves. -/
theorem setMultiLightsExactlyTheListed : Obligations.SetMultiLightsExactlyTheListed := by
  refine fun s indices r g b hs => ⟨rfl, accept_withInstance_none _ hs, fun x hi => ?_⟩
  refine ⟨_, execSetMultiWith_success Config.hw indices r g b hs hi, rfl, rfl, rfl, fun i hin => ?_,
    fun _ => read_setMulti_outside Config.hw x.pstore x.n _ indices⟩
  exact Instance.pix_eq_ite_of_ch rfl fun _ => read_setMulti_channel Config.hw x.pstore x.n _ indices hin

/-- A canonical store after the listed writes depends only on which existing pixels are listed: its reads do. -/
theorem Memory.writeListed_congr (P : Params) {m : Memory} {n : Nat} (v : Nat → Byte) {is js : List Nat} (hm : Memory.wf m)
    (h : ∀ p, p < n → (p ∈ is ↔ p ∈ js)) : Memory.writeListed P m n v is = Memory.writeListed P m n v js := by
  refine Memory.ext (Memory.writeListed_wf P m n v is hm) (Memory.writeListed_wf P m n v js hm) fun a => ?_
  by_cases ha : a < P.channels * n
  · obtain ⟨p, c, hp, hc, rfl⟩ := exists_channel P n a ha
    rw [Memory.read_writeListed_channel P m n v is p c hp hc, Memory.read_writeListed_channel P m n v js p c hp hc]
    simp only [h p hp]
  · have hout : P.channels * n ≤ a := Nat.not_lt.1 ha
    rw [Memory.read_writeListed_outside P m n v is a hout, Memory.read_writeListed_outside P m n v js a hout]

theorem execSetMultiWith_congr {P : Params} {s : State} {is js : List Nat} (r g b : Byte) (hinv : s.InvWith P)
    (h : ∀ x ∈ s.inst, ∀ p, p < x.n → (p ∈ is ↔ p ∈ js)) :
    execSetMultiWith P is r g b s = execSetMultiWith P js r g b s := by
  obtain ⟨legal, -⟩ := hinv
  unfold execSetMultiWith
  congr 1
  cases hi : s.inst with
  | none => rw [withInstance_none s _ hi, withInstance_none s _ hi]
  | some x =>
    obtain ⟨-, -, hwf, -⟩ := legal x hi
    rw [withInstance_some s _ x hi, withInstance_some s _ x hi]
    simp only [Instance.clearPixels_ok P x x.n (Nat.le_refl _), Instance.setListed_ok,
      Memory.writeListed_congr P (colour r g b) (Memory.clearBelow_wf P x.pstore x.n hwf) (h x hi)]

/-- Settles O22: `execSetMultiWith_congr` at this hardware's values. -/
theorem setMultiDependsOnlyOnTheListedPixels : Obligations.SetMultiDependsOnlyOnTheListedPixels :=
  fun _ _ _ r g b hinv h => execSetMultiWith_congr r g b hinv h

/-! ### CLEAR (R116) -/

/-- A store reads the same after a second clearing loop. -/
theorem Memory.read_clearBelow_clearBelow (P : Params) (m : Memory) (n a : Nat) :
    Memory.read (Memory.clearBelow P (Memory.clearBelow P m n) n) a = Memory.read (Memory.clearBelow P m n) a := by
  simp only [Memory.read_clearBelow]
  split
  · rfl
  · rfl

/-- Settles O23: the encoding, the error exit and the success of CLEAR, and the reads after one and after two clearing loops. -/
theorem clearZeroesTheStore : Obligations.ClearZeroesTheStore := by
  refine ⟨rfl, fun s hs => ⟨accept_withInstance_none _ hs, fun x hi => ?_⟩⟩
  refine ⟨_, _, execClearWith_success Config.hw hs hi, rfl, rfl, rfl, rfl, fun a ha => ?_, fun a ha => ?_,
    _, execClearWith_success Config.hw hs rfl, Memory.read_clearBelow_clearBelow Config.hw x.pstore x.n⟩
  · rw [Memory.read_clearBelow]
    exact if_pos ha
  · rw [Memory.read_clearBelow]
    exact if_neg (Nat.not_lt.2 ha)

/-! ### The mutators (R117) -/

/-- A command that does not transmit keeps TRACE, the port's events and the show record, from any state. -/
theorem execWith_mutator_transmits_nothing {P : Params} {i : Instr} {s t : State} (hi : isShow i = false)
    (ht : execWith P i s = .next t) : t.trace = s.trace ∧ t.portEvents = s.portEvents ∧ t.run = s.run := by
  rcases execWith_next_cases P i s t ht with ⟨-, -, rfl⟩ | hs
  · exact ⟨rfl, rfl, rfl⟩
  · obtain ⟨_, _, _, _, hexec, -⟩ := execWith_mutator_cases P i s hi hs.1 hs.2
    rw [hexec] at ht
    cases ht
    exact ⟨rfl, rfl, hs.2.symm⟩

/-- Settles O24: `execWith_mutator_transmits_nothing` at this hardware's values. -/
theorem mutatorsDoNotTransmit : Obligations.MutatorsDoNotTransmit := by
  intro i s t hi ht
  rw [← execWith_hw] at ht
  exact execWith_mutator_transmits_nothing hi ht

end Sys2Proof.Machine
end

section
/-! SUPPORT. The symbol encoder (41_symbol_encoder.md): the expander read from its last symbol, the inverse of the expander on symbol
groups, a store with given bytes, so that every symbol stream is the data stream of one store (R152), and the bytes a successful show
sends as a function of N and the store (R153, R179). -/

namespace Sys2Proof.Machine

open Sys2Proof.Config (Params)

/-! ### The expander (R144, R145) -/

/-- Settles O25: the expander's length and elements, and its eight symbols written out at the named bytes. -/
theorem expandIsMostSignificantBitFirst : Obligations.ExpandIsMostSignificantBitFirst := by
  refine ⟨fun P v h8 => ⟨h8 ▸ expand_length P v, fun m hm => ?_⟩, fun P h8 => ?_, by decide⟩
  · rw [expand_getElem? P v m (h8.symm ▸ hm), h8]
    rfl
  · simp only [expand_eight P h8]
    exact ⟨rfl, rfl, rfl, rfl⟩

/-- Read from its last symbol, the expansion is the bits of the byte in ascending order. -/
theorem expand_reverse (P : Params) (v : Byte) :
    (expand P v).reverse = (List.range P.symbolsPerByte).map fun k => sym P (v.getLsbD k) := by
  refine List.ext_getElem (by simp) fun k hk _ => ?_
  have hlt : k < P.symbolsPerByte := by simpa using hk
  simp [expand, Nat.sub_sub_self (Nat.le_sub_one_of_lt hlt)]

/-- The symbols equal to SYM1 are as many as the byte's 1 bits among those expanded. -/
theorem count_sym1_expand (P : Params) (h : P.Admissible) (v : Byte) :
    (expand P v).count P.sym1 = (List.range P.symbolsPerByte).countP fun k => v.getLsbD k := by
  rw [← List.count_reverse, expand_reverse, List.count, List.countP_map]
  exact List.countP_congr fun k _ => beq_iff_eq.trans (sym_eq_sym1 P h _)

/-- Settles O26: length, elements, the count of SYM1 and injectivity, each by its law. -/
theorem expanderProperties : Obligations.ExpanderProperties := by
  intro P h h8
  refine ⟨fun v => h8 ▸ expand_length P v, mem_expand P, fun v => ?_, expand_injective P h h8⟩
  rw [count_sym1_expand P h v, h8, popcount]

/-! ### The nibble table (R146) -/

/-- Entry `w` of the nibble table is the four bits of `w`, most significant first. -/
theorem nibbleTable_getD (P : Params) {w : Nat} (hw : w < 16) :
    (nibbleTable P).getD w [] =
      [sym P (w.testBit 3), sym P (w.testBit 2), sym P (w.testBit 1), sym P (w.testBit 0)] := by
  interval_cases w <;> rfl

/-- Bit `k` of a byte's high nibble. -/
theorem testBit_highNibble (v : Byte) (k : Nat) : (v.toNat / 16).testBit k = v.getLsbD (k + 4) :=
  Nat.testBit_div_two_pow (n := 4) v.toNat k

/-- Bit `k` of a byte's low nibble. -/
theorem testBit_lowNibble (v : Byte) {k : Nat} (hk : k < 4) : (v.toNat % 16).testBit k = v.getLsbD k := by
  rw [show 16 = 2 ^ 4 from rfl, Nat.testBit_mod_two_pow, decide_eq_true hk, Bool.true_and, BitVec.testBit_toNat]

/-- Settles O27: the two table entries are the eight symbols of the byte. -/
theorem nibbleTableIsTheExpander : Obligations.NibbleTableIsTheExpander := by
  intro P v h8
  have hhigh : v.toNat / 16 < 16 := by have := v.isLt; omega
  have hlow : v.toNat % 16 < 16 := Nat.mod_lt _ (by decide)
  rw [expandByTable, nibbleTable_getD P hhigh, nibbleTable_getD P hlow, expand_eight P h8]
  simp only [testBit_highNibble, testBit_lowNibble, Nat.reduceLT, Nat.reduceAdd, List.cons_append, List.nil_append]

/-! ### The data stream and the frame (R149, R150) -/

/-- The symbols of a pixel of three channels (R148). -/
theorem pixSyms_three (P : Params) (hC : P.channels = 3) (x : Instance) (p : Nat) :
    pixSyms P x p = expand P (x.ch P p 0) ++ expand P (x.ch P p 1) ++ expand P (x.ch P p 2) := by
  rw [pixSyms_eq, hC]
  simp [List.range_succ]

/-- Settles O28: the pixels' symbols, and the length and element laws of the data stream at three channels of eight symbols. -/
theorem dataStreamLayout : Obligations.DataStreamLayout := by
  intro P x hC h8
  have h24 : pixelSymbols P = 24 := by rw [pixelSymbols, hC, h8]
  refine ⟨?_, ?_, fun p c m hp hc hm => ?_, fun hn => ?_⟩
  · rw [map_flatten_eq_flatMap]
    exact List.flatMap_congr fun p _ => pixSyms_three P hC x p
  · rw [dataStream_length, Instance.frameBytes, h24]
  · have helem := dataStream_getElem? P x p c m hp (hC.symm ▸ hc) (h8.symm ▸ hm)
    rwa [h24, h8] at helem
  · rw [dataStream, hn]
    rfl

theorem frame_length (P : Params) (x : Instance) : (frame P x).length = x.frameBytes P + P.resetBytes := by
  rw [frame, List.length_append, dataStream_length, resetPeriod, List.length_replicate]

/-- Settles O29: the definition of the frame and its length at this hardware's values. -/
theorem frameLayout : Obligations.FrameLayout := fun x _ => ⟨rfl, frame_length Config.hw x⟩

/-! ### The inverse of the expander on a symbol group (R152) -/

theorem decodeGroup_concat (P : Params) (g : List Byte) (b : Byte) :
    decodeGroup P (g ++ [b]) = (decodeGroup P g <<< 1) ||| (if b = P.sym1 then 1#8 else 0#8) := by
  rw [decodeGroup, List.foldl_concat]
  rfl

/-- Bit `k` of a decoded group says whether the `k`-th symbol from the end is SYM1. -/
theorem getLsbD_decodeGroup (P : Params) (g : List Byte) {k : Nat} (hk : k < 8) :
    (decodeGroup P g).getLsbD k = decide (g.reverse[k]? = some P.sym1) := by
  induction g using List.reverseRecOn generalizing k with
  | nil => simp [decodeGroup]
  | append_singleton g b ih =>
    rw [decodeGroup_concat, List.reverse_concat]
    cases k with
    | zero => by_cases hb : b = P.sym1 <;> simp [hb]
    | succ k =>
      have hbit : (if b = P.sym1 then 1#8 else 0#8).getLsbD (k + 1) = false := by split <;> simp
      rw [BitVec.getLsbD_or, hbit, Bool.or_false, List.getElem?_cons_succ, ← ih (by omega)]
      simp [hk, BitVec.getLsbD_eq_getElem (show k < 8 by omega)]

theorem sym_decide_eq_sym1 (P : Params) {b : Byte} (hb : b = P.sym1 ∨ b = P.sym0) : sym P (decide (b = P.sym1)) = b := by
  by_cases h : b = P.sym1
  · rw [decide_eq_true h]
    exact h.symm
  · rw [decide_eq_false h]
    exact (hb.resolve_left h).symm

/-- Every group of at most eight symbols is the expansion of the byte it decodes to. -/
theorem expand_decodeGroup (P : Params) (h8 : P.symbolsPerByte ≤ 8) {g : List Byte} (hlen : g.length = P.symbolsPerByte)
    (hg : ∀ b ∈ g, b = P.sym1 ∨ b = P.sym0) : expand P (decodeGroup P g) = g := by
  refine List.reverse_injective ?_
  rw [expand_reverse]
  refine List.ext_getElem (by simp [hlen]) fun k hk hk' => ?_
  have hlt : k < P.symbolsPerByte := by simpa using hk
  rw [List.getElem_map, List.getElem_range, getLsbD_decodeGroup P g (by omega), List.getElem?_eq_getElem hk']
  simp only [Option.some.injEq]
  exact sym_decide_eq_sym1 P (hg _ (List.mem_reverse.1 (List.getElem_mem hk')))

/-! ### The store of a symbol stream (R152) -/

/-- The memory that holds `f a` at each offset `a` below `k`. -/
def Memory.filled (f : Nat → Byte) : Nat → Memory
  | 0 => []
  | k + 1 => Memory.write (Memory.filled f k) k (f k)

theorem Memory.read_filled (f : Nat → Byte) {k a : Nat} (h : a < k) : Memory.read (Memory.filled f k) a = f a := by
  induction k with
  | zero => omega
  | succ k ih =>
    rw [Memory.filled, Memory.read_write]
    split
    next ha => rw [ha]
    next ha => exact ih (by omega)

/-- Symbol group `q` of a stream, that of the store's byte at offset `q`. -/
def streamGroup (P : Params) (stream : List Byte) (q : Nat) : List Byte :=
  (stream.drop (P.symbolsPerByte * q)).take P.symbolsPerByte

theorem streamGroup_dataStream (P : Params) (x : Instance) {p c : Nat} (hp : p < x.n) (hc : c < P.channels) :
    streamGroup P (dataStream P x) (channelOffset P p c) = expand P (x.ch P p c) := by
  rw [streamGroup, symbolsPerByte_mul_channelOffset]
  exact dataStream_group P x p c hp hc

theorem streamGroup_length (P : Params) {stream : List Byte} {k q : Nat} (hlen : stream.length = P.symbolsPerByte * k)
    (hq : q < k) : (streamGroup P stream q).length = P.symbolsPerByte := by
  have hle : P.symbolsPerByte * (q + 1) ≤ P.symbolsPerByte * k := Nat.mul_le_mul_left _ hq
  rw [Nat.mul_succ] at hle
  rw [streamGroup, List.length_take, List.length_drop, hlen]
  omega

theorem mem_of_mem_streamGroup {P : Params} {stream : List Byte} {q : Nat} {b : Byte} (h : b ∈ streamGroup P stream q) :
    b ∈ stream := List.mem_of_mem_drop (List.mem_of_mem_take h)

/-- Streams of `k` groups are equal where each of their groups is. -/
theorem eq_of_streamGroup_eq (P : Params) {s t : List Byte} {k : Nat} (hs : s.length = P.symbolsPerByte * k)
    (ht : t.length = P.symbolsPerByte * k) (h : ∀ q, q < k → streamGroup P s q = streamGroup P t q) : s = t := by
  refine List.ext_getElem? fun i => ?_
  by_cases hi : i < P.symbolsPerByte * k
  · have hpos : 0 < P.symbolsPerByte := Nat.pos_of_mul_pos_right (Nat.zero_lt_of_lt hi)
    have hm : i % P.symbolsPerByte < P.symbolsPerByte := Nat.mod_lt i hpos
    have hgroup := congrArg (·[i % P.symbolsPerByte]?) (h (i / P.symbolsPerByte) (Nat.div_lt_of_lt_mul hi))
    simpa only [streamGroup, List.getElem?_take_of_lt hm, List.getElem?_drop, Nat.div_add_mod] using hgroup
  · rw [List.getElem?_eq_none (by omega), List.getElem?_eq_none (by omega)]

/-- A store of `n` pixels whose bytes are those the stream's groups decode to. -/
def streamStore (P : Params) (n : Nat) (stream : List Byte) : Instance where
  n := n
  syncEn := true
  asyncEn := true
  pstore := Memory.filled (fun q => decodeGroup P (streamGroup P stream q)) (P.channels * n)

theorem streamStore_ch (P : Params) {n : Nat} (stream : List Byte) {p c : Nat} (hp : p < n) (hc : c < P.channels) :
    (streamStore P n stream).ch P p c = decodeGroup P (streamGroup P stream (channelOffset P p c)) :=
  Memory.read_filled _ (channelOffset_lt P hp hc)

/-- Every stream of the right length over the two symbols is a data stream: that of the store it decodes to. -/
theorem dataStream_streamStore (P : Params) (h8 : P.symbolsPerByte ≤ 8) {n : Nat} {stream : List Byte}
    (hlen : stream.length = P.symbolsPerByte * (P.channels * n)) (hsym : ∀ b ∈ stream, b = P.sym1 ∨ b = P.sym0) :
    dataStream P (streamStore P n stream) = stream := by
  have hdata : (dataStream P (streamStore P n stream)).length = P.symbolsPerByte * (P.channels * n) := by
    rw [dataStream_length, Instance.frameBytes, pixelSymbols, Nat.mul_comm P.channels, Nat.mul_assoc]
    rfl
  refine eq_of_streamGroup_eq P hdata hlen fun q hq => ?_
  obtain ⟨p, c, hp, hc, rfl⟩ := exists_channel P n q hq
  rw [streamGroup_dataStream P _ hp hc, streamStore_ch P stream hp hc]
  exact expand_decodeGroup P h8 (streamGroup_length P hlen hq) fun b hb => hsym b (mem_of_mem_streamGroup hb)

/-- Settles O30: the channel bytes by the inverse of the expander, the store by decoding the stream group by group. -/
theorem dataStreamDecodesToOneStore : Obligations.DataStreamDecodesToOneStore := by
  intro P h hC h8
  refine ⟨fun x p c hp hc => decodeChannel_dataStream P h h8 x p c hp (hC.symm ▸ hc), fun n stream hlen hsym => ?_⟩
  refine ⟨streamStore P n stream, rfl, dataStream_streamStore P (Nat.le_of_eq h8) ?_ hsym⟩
  rw [hlen, hC, h8]
  omega

/-! ### What frames and shows depend on (R153, R179) -/

/-- The data stream reads only the store's bytes. -/
theorem dataStream_congr (P : Params) {x y : Instance} (hn : x.n = y.n)
    (h : ∀ a, a < x.storeBytes P → Memory.read x.pstore a = Memory.read y.pstore a) :
    dataStream P x = dataStream P y := by
  rw [dataStream, dataStream, ← hn]
  refine List.flatMap_congr fun p hp => ?_
  rw [pixSyms_eq, pixSyms_eq]
  refine List.flatMap_congr fun c hc => congrArg (expand P) ?_
  exact h _ (channelOffset_lt P (List.mem_range.1 hp) (List.mem_range.1 hc))

theorem frame_congr (P : Params) {x y : Instance} (hn : x.n = y.n)
    (h : ∀ a, a < x.storeBytes P → Memory.read x.pstore a = Memory.read y.pstore a) : frame P x = frame P y := by
  rw [frame, frame, dataStream_congr P hn h]

/-- Both call lists carry the frame (R174, R176). -/
theorem callList_flatten (P : Params) (x : Instance) (port : Port) : (callList P x port).flatten = frame P x := by
  cases port
  · exact syncCalls_flatten P x
  · exact asyncCalls_flatten P x

/-- A show that ends with OK had every call answered OK, whatever the events. -/
theorem runShow_waitState_trace_of_ok {P : Params} {x : Instance} {port : Port} {u t : State} {es : List PortEvent} {k : Nat}
    (hi : u.inst = some x) (hk : k < (callList P x port).length) (ht : runShow P es (waitState P x port u k) = .next t)
    (hb : t.busy = false) (hok : t.status = some .ok) : t.trace = u.trace ++ entries port .ok (callList P x port) := by
  rcases runShow_cases P x port u hi es k hk with ⟨_, _, _, e⟩ | ⟨_, _, _, e⟩ | ⟨_, e⟩ <;> rw [e] at ht <;> cases ht
  · cases hb
  · cases hok
  · rfl

/-- SHOW_SYNC that ends with OK made its whole call list. -/
theorem execShowSyncWith_trace_of_ok {P : Params} {s t : State} {x : Instance} (hs : s.Idle) (hi : s.inst = some x)
    (ht : execShowSyncWith P s = .next t) (hb : t.busy = false) (hok : t.status = some .ok) :
    t.trace = s.trace ++ entries .sync .ok (callList P x .sync) := by
  rcases execShowSync_idle_cases P s hs.1 hs.2 with ⟨-, e⟩ | ⟨_, -, -, e⟩ | ⟨y, hy, -, hnil, e⟩ | ⟨y, hy, -, hlen, e⟩ <;>
    rw [e] at ht
  · cases ht
    cases hok
  · cases ht
    cases hok
  · obtain rfl : y = x := Option.some.inj (hy.symm.trans hi)
    cases ht
    simp [hnil, entries]
  · obtain rfl : y = x := Option.some.inj (hy.symm.trans hi)
    exact runShow_waitState_trace_of_ok hi hlen ht hb hok

/-- SHOW_ASYNC of at least one pixel that ends with OK made its whole call list. -/
theorem execShowAsyncWith_trace_of_ok {P : Params} {s t : State} {x : Instance} (hs : s.Idle) (hi : s.inst = some x)
    (hn : 0 < x.n) (ht : execShowAsyncWith P s = .next t) (hb : t.busy = false) (hok : t.status = some .ok) :
    t.trace = s.trace ++ entries .async .ok (callList P x .async) := by
  rcases execShowAsync_idle_cases P s hs.1 hs.2 with
      ⟨-, e⟩ | ⟨_, -, -, e⟩ | ⟨y, hy, -, hn0, -⟩ | ⟨_, -, -, -, -, e⟩ | ⟨y, hy, -, -, -, e⟩
  · rw [e] at ht
    cases ht
    cases hok
  · rw [e] at ht
    cases ht
    cases hok
  · obtain rfl : y = x := Option.some.inj (hy.symm.trans hi)
    omega
  · rw [e] at ht
    cases ht
    cases hok
  · obtain rfl : y = x := Option.some.inj (hy.symm.trans hi)
    rw [e] at ht
    rw [← State.alloc_trace s (y.frameBytes P)]
    exact runShow_waitState_trace_of_ok ((State.alloc_inst ..).trans hi) (Nat.succ_pos _) ht hb hok

/-- Either show of at least one pixel that ends with OK made its whole call list, for any parameter values. -/
theorem execWith_show_trace_of_ok {P : Params} {port : Port} {s t : State} {x : Instance} (hs : s.Idle)
    (hi : s.inst = some x) (hn : 0 < x.n) (ht : execWith P (showInstr port) s = .next t) (hb : t.busy = false)
    (hok : t.status = some .ok) : t.trace = s.trace ++ entries port .ok (callList P x port) := by
  cases port
  · exact execShowSyncWith_trace_of_ok hs hi ht hb hok
  · exact execShowAsyncWith_trace_of_ok hs hi hn ht hb hok

/-- Settles O43: the data stream and the frame read only the store's bytes, and a successful show's entries carry the frame. -/
theorem showBytesDependOnlyOnTheStore : Obligations.ShowBytesDependOnlyOnTheStore := by
  unfold Obligations.ShowBytesDependOnlyOnTheStore
  rw [← execWith_hw]
  refine fun x y hn => ⟨fun P h => ⟨dataStream_congr P hn h, frame_congr P hn h⟩, ?_⟩
  intro h i j s t u v hi hj hs hu hx hy hpos ht hv htb hvb htok hvok
  obtain ⟨port, rfl⟩ := (isShow_iff_showInstr i).1 hi
  obtain ⟨port', rfl⟩ := (isShow_iff_showInstr j).1 hj
  refine ⟨_, _, execWith_show_trace_of_ok hs hx hpos ht htb htok,
    execWith_show_trace_of_ok hu hy (hn ▸ hpos) hv hvb hvok, ?_⟩
  rw [traceBytes_entries, traceBytes_entries, callList_flatten, callList_flatten, frame_congr Config.hw hn h]

/-! ### Timing figures (R155, R246 to R248) -/

/-- Settles O51: the arithmetic at T_BYTE = 1.25 us. -/
theorem timingFigures : Obligations.TimingFigures := by
  unfold Obligations.TimingFigures
  decide

end Sys2Proof.Machine
end

section
/-! SUPPORT. The shows (42_show.md) from an idle block: their error exits and the shows of no pixels as record updates of the
state, the bytes a successful show puts on the link, and the little that an ended show leaves. -/

namespace Sys2Proof.Machine

open Sys2Proof.Config (Params)

/-! ### SHOW_SYNC (R170 to R173) -/

theorem execShowSyncWith_noPort (P : Params) {s : State} {x : Instance} (hs : s.Idle) (hi : s.inst = some x)
    (hp : x.syncEn = false) :
    execShowSyncWith P s = .next { s with status := some .err, cause := some .noPort } := by
  rw [execShowSyncWith, accept_idle s _ hs.1 hs.2, withInstance_some s _ x hi, if_pos hp, State.raise_of_run_eq_none hs.2]

/-- At an idle block a show that failed at call `k` leaves the entries of its calls, the last one FAIL, and STATUS. -/
theorem failedState_of_run_eq_none (P : Params) (x : Instance) (port : Port) {s : State} (hr : s.run = none)
    (es : List PortEvent) (k : Nat) :
    failedState P x port { s with portEvents := es } k =
      { s with
        trace := s.trace ++ entries port .ok ((callList P x port).take k) ++ [⟨port, callAt P x port k, .fail⟩],
        portEvents := es, status := some .err, cause := some .transportFail } :=
  State.raise_of_run_eq_none (by exact hr) .transportFail

/-- SHOW_SYNC whose call `k` answers FAIL, and the calls before it OK. -/
theorem execShowSyncWith_transportFail (P : Params) {s : State} {x : Instance} {k : Nat} {es : List PortEvent}
    (hs : s.Idle) (hi : s.inst = some x) (hp : x.syncEn = true) (hk : k < (callList P x .sync).length)
    (hes : s.portEvents = List.replicate k .ok ++ .fail :: es) :
    execShowSyncWith P s =
      .next { s with
        trace := s.trace ++ entries .sync .ok ((syncCalls P x).take k) ++ [⟨.sync, callAt P x .sync k, .fail⟩],
        portEvents := es, status := some .err, cause := some .transportFail } := by
  rw [execShowSyncWith_idle P s x hs.1 hs.2 hi hp (Nat.zero_lt_of_lt hk), hes, runShow_fail P x .sync s hi k es hk,
    failedState_of_run_eq_none P x .sync hs.2]
  rfl

/-- With no pixels SHOW_SYNC's calls are those of the reset period (R172). -/
theorem entries_syncCalls_no_pixels (P : Params) {x : Instance} (hn : x.n = 0) (a : Answer) :
    entries .sync a (syncCalls P x) = List.replicate P.resetBytes ⟨.sync, [P.resetByte], a⟩ := by
  have hgroups : symbolGroups P x = [] := by rw [symbolGroups, hn]; rfl
  rw [syncCalls, hgroups, List.nil_append, resetCalls, entries, List.map_replicate]

/-- Settles O32: the call list of SHOW_SYNC, its elements by their laws, and an OK for every call. -/
theorem syncShowSucceeds : Obligations.SyncShowSucceeds := by
  intro s x es hs hi hp hes
  have hlen : (syncCalls Config.hw x).length = 3 * x.n + 240 := syncCalls_length Config.hw x
  refine ⟨syncCalls Config.hw x, hlen, fun p c => syncCalls_data Config.hw x p c, syncCalls_reset Config.hw x, ?_⟩
  exact execShowSyncWith_success Config.hw hs hi hp (hlen.symm ▸ hes)

/-- Settles O33: the error exit at call `k`, which is the call list's element `k`. -/
theorem syncShowStopsAtTheFirstFailure : Obligations.SyncShowStopsAtTheFirstFailure := by
  intro s x k es hs hi hp hk hes
  have hcall : k < (syncCalls Config.hw x).length := by rw [syncCalls_length]; exact hk
  have hbytes : (syncCalls Config.hw x)[k]? = some (callAt Config.hw x .sync k) := by
    rw [callAt, callList, List.getD_eq_getElem?_getD, List.getElem?_eq_getElem hcall, Option.getD_some]
  exact ⟨_, hbytes, execShowSyncWith_transportFail Config.hw hs hi hp hcall hes⟩

/-! ### SHOW_ASYNC (R175 to R178) -/

theorem execShowAsyncWith_noPort (P : Params) {s : State} {x : Instance} (hs : s.Idle) (hi : s.inst = some x)
    (hp : x.asyncEn = false) :
    execShowAsyncWith P s = .next { s with status := some .err, cause := some .noPort } := by
  rw [execShowAsyncWith, accept_idle s _ hs.1 hs.2, withInstance_some s _ x hi, if_pos hp, State.raise_of_run_eq_none hs.2]

/-- With no pixels SHOW_ASYNC ends before it asks or sends anything (R177). -/
theorem execShowAsyncWith_no_pixels (P : Params) {s : State} {x : Instance} (hs : s.Idle) (hi : s.inst = some x)
    (hp : x.asyncEn = true) (hn : x.n = 0) :
    execShowAsyncWith P s = .next { s with status := some .ok, cause := none } := by
  rw [execShowAsyncWith, accept_idle s _ hs.1 hs.2, withInstance_some s _ x hi, if_neg (by simp [hp]), if_pos hn,
    State.complete, State.endCommand_of_run_eq_none hs.2]
  rfl

theorem execShowAsyncWith_allocFail (P : Params) {s : State} {x : Instance} (hs : s.Idle) (hi : s.inst = some x)
    (hp : x.asyncEn = true) (hn : x.n ≠ 0) (ha : (s.alloc (x.frameBytes P)).1 = false) :
    execShowAsyncWith P s =
      .next { (s.alloc (x.frameBytes P)).2 with status := some .err, cause := some .allocFail } := by
  have hr : (s.alloc (x.frameBytes P)).2.run = none := (State.alloc_run ..).trans hs.2
  rw [execShowAsyncWith, accept_idle s _ hs.1 hs.2, withInstance_some s _ x hi, if_neg (by simp [hp]), if_neg hn,
    ← State.raise_of_run_eq_none hr]
  exact if_pos ha

/-- SHOW_ASYNC of at least one pixel, with storage, whose call `k` answers FAIL, and the calls before it OK. -/
theorem execShowAsyncWith_transportFail (P : Params) {s : State} {x : Instance} {k : Nat} {es : List PortEvent}
    (hs : s.Idle) (hi : s.inst = some x) (hp : x.asyncEn = true) (hn : x.n ≠ 0)
    (ha : (s.alloc (x.frameBytes P)).1 = true) (hk : k < (callList P x .async).length)
    (hes : s.portEvents = List.replicate k .ok ++ .fail :: es) :
    execShowAsyncWith P s =
      .next { (s.alloc (x.frameBytes P)).2 with
        trace := s.trace ++ entries .async .ok ((asyncCalls P x).take k) ++ [⟨.async, callAt P x .async k, .fail⟩],
        portEvents := es, status := some .err, cause := some .transportFail } := by
  have hr : (s.alloc (x.frameBytes P)).2.run = none := (State.alloc_run ..).trans hs.2
  rw [execShowAsyncWith_idle P s x hs.1 hs.2 hi hp hn ha, hes,
    runShow_fail P x .async _ ((State.alloc_inst ..).trans hi) k es hk, failedState_of_run_eq_none P x .async hr,
    State.alloc_trace]
  rfl

/-- SHOW_ASYNC's calls up to reset call `j`: the data stream and `j` reset bytes (R176). -/
theorem entries_take_asyncCalls (P : Params) (x : Instance) (a : Answer) {j : Nat} (hj : j ≤ P.resetBytes) :
    entries .async a ((asyncCalls P x).take (j + 1)) =
      ⟨.async, dataStream P x, a⟩ :: List.replicate j ⟨.async, [P.resetByte], a⟩ := by
  simp [entries, asyncCalls, resetCalls, Nat.min_eq_left hj]

/-- Settles O34: SHOW_ASYNC with storage and an OK for every call, the entries written out. -/
theorem asyncShowSucceeds : Obligations.AsyncShowSucceeds := by
  intro s x es hs hi hp hn ha hes
  have hshow := execShowAsyncWith_success Config.hw hs hi hp (Nat.ne_of_gt hn) ha hes
  rw [callList, entries_asyncCalls] at hshow
  exact hshow

/-- Settles O35: the allocator's refusal, and a FAIL at the data call and at reset call `j`. -/
theorem asyncShowFailures : Obligations.AsyncShowFailures := by
  intro s x hs hi hp hn
  have hn0 : x.n ≠ 0 := Nat.ne_of_gt hn
  have hlen : (callList Config.hw x .async).length = 1 + 240 := asyncCalls_length Config.hw x
  refine ⟨fun ha => ?_, fun es ha hes => ?_, fun j es ha hj hes => ?_⟩
  · exact execShowAsyncWith_allocFail Config.hw hs hi hp hn0 ha
  · have hfail := execShowAsyncWith_transportFail Config.hw (k := 0) hs hi hp hn0 ha (by omega) hes
    rw [callAt_async_data, List.take_zero, entries, List.map_nil, List.append_nil] at hfail
    exact hfail
  · rw [Nat.add_comm 1 j] at hes
    have hfail := execShowAsyncWith_transportFail Config.hw (k := j + 1) hs hi hp hn0 ha (by omega) hes
    rw [callAt_async_reset Config.hw x j hj, entries_take_asyncCalls Config.hw x .ok (Nat.le_of_lt hj),
      List.append_assoc] at hfail
    exact hfail

/-! ### Both shows -/

/-- Settles O36: SHOW_ASYNC without pixels, and SHOW_SYNC's success where its calls are the reset period's. -/
theorem showsOfNoPixels : Obligations.ShowsOfNoPixels := by
  intro s x hs hi hn
  refine ⟨fun hp => execShowAsyncWith_no_pixels Config.hw hs hi hp hn, fun es hp hes => ?_⟩
  have hlen : (callList Config.hw x .sync).length = 240 := by
    rw [callList, syncCalls_length, Instance.storeBytes, hn]; rfl
  have hshow := execShowSyncWith_success Config.hw hs hi hp (hlen.symm ▸ hes)
  rw [callList, entries_syncCalls_no_pixels Config.hw hn] at hshow
  exact hshow

/-- Settles O37: the NO_PORT exit of each show. -/
theorem showsNeedTheirPort : Obligations.ShowsNeedTheirPort := fun _ _ hs hi =>
  ⟨execShowSyncWith_noPort Config.hw hs hi, execShowAsyncWith_noPort Config.hw hs hi⟩

/-! ### The link (R64) -/

/-- A call answered OK puts exactly its bytes on the link, before those of the later calls. -/
theorem linkCarries_cons_ok {e : Entry} (he : e.answer = .ok) (es : List Entry) (link : List Byte) :
    linkCarries (e :: es) link ↔ ∃ rest, link = e.bytes ++ rest ∧ linkCarries es rest := by
  simp only [linkCarries, he]
  constructor
  · rintro ⟨_, rest, hlink, hrest, rfl⟩
    exact ⟨rest, hlink, hrest⟩
  · rintro ⟨rest, hlink, hrest⟩
    exact ⟨_, rest, hlink, hrest, rfl⟩

/-- Where every call was answered OK, the link carries the bytes of the calls and nothing else. -/
theorem linkCarries_of_answered_ok {es : List Entry} (h : ∀ e ∈ es, e.answer = .ok) (link : List Byte) :
    linkCarries es link ↔ link = traceBytes es := by
  induction es generalizing link with
  | nil => exact Iff.rfl
  | cons e es ih =>
    obtain ⟨he, hes⟩ := List.forall_mem_cons.1 h
    simp only [linkCarries_cons_ok he, ih hes, exists_eq_right, traceBytes, List.flatMap_cons]

/-- Settles O42: an ended OK show made its whole call list, whose bytes are the frame. -/
theorem successfulShowSendsTheFrame : Obligations.SuccessfulShowSendsTheFrame := by
  unfold Obligations.SuccessfulShowSendsTheFrame
  rw [← execWith_hw]
  intro i s t x hshow hs hi hn ht hb hok
  obtain ⟨port, rfl⟩ := (isShow_iff_showInstr i).1 hshow
  have hanswered : ∀ e ∈ entries port .ok (callList Config.hw x port), e.answer = .ok := fun _ he => (mem_entries he).2
  have hbytes : traceBytes (entries port .ok (callList Config.hw x port)) = frame Config.hw x := by
    rw [traceBytes_entries, callList_flatten]
  exact ⟨_, execWith_show_trace_of_ok hs hi hn ht hb hok, hanswered, hbytes,
    fun link => hbytes ▸ linkCarries_of_answered_ok hanswered link⟩

/-! ### What an ended show leaves (R180) -/

/-- A show begins from the state it was given, but for the allocator's script and counter. -/
theorem Drawn.eq_update {s u : State} (h : Drawn s u) :
    ∃ draws count, u = { s with allocDraws := draws, allocCount := count } := by
  obtain rfl | ⟨n, rfl⟩ := h
  · exact ⟨_, _, rfl⟩
  · rcases s.alloc_cases n with ⟨_, as, e⟩ | ⟨_, e⟩ <;> rw [e]
    · exact ⟨as, _, rfl⟩
    · exact ⟨_, s.allocCount + 1, rfl⟩

/-- A show begun at `u` that has ended has added entries, set STATUS and taken events. -/
theorem runShow_waitState_ended {P : Params} {x : Instance} {port : Port} {u t : State} {es : List PortEvent} {k : Nat}
    (hi : u.inst = some x) (hk : k < (callList P x port).length) (ht : runShow P es (waitState P x port u k) = .next t)
    (hb : t.busy = false) :
    ∃ new es' c, t = ({ u with trace := u.trace ++ new, portEvents := es' } : State).endCommand c := by
  rcases runShow_cases P x port u hi es k hk with ⟨_, _, -, e⟩ | ⟨_, es', -, e⟩ | ⟨es', e⟩ <;> rw [e] at ht <;>
    cases ht
  · cases hb
  · exact ⟨_, es', some .transportFail, by rw [failedState, List.append_assoc]; rfl⟩
  · exact ⟨_, es', none, rfl⟩

/-- Either show from an idle state, once it has ended. -/
theorem execWith_show_ended {P : Params} {port : Port} {s t : State} (hs : s.Idle)
    (ht : execWith P (showInstr port) s = .next t) (hb : t.busy = false) :
    ∃ new es draws count c,
      t = ({ s with trace := s.trace ++ new, portEvents := es, allocDraws := draws, allocCount := count } : State).endCommand
        c := by
  obtain ⟨u, hu, hend⟩ := execWith_show_idle_cases P port hs
  obtain ⟨draws, count, rfl⟩ := hu.eq_update
  rcases hend with ⟨c, e⟩ | ⟨x, hx⟩
  · rw [e] at ht
    cases ht
    exact ⟨[], s.portEvents, draws, count, c, by rw [List.append_nil]⟩
  · obtain ⟨new, es, c, rfl⟩ :=
      runShow_waitState_ended (u := { s with allocDraws := draws, allocCount := count }) hx.inst hx.call
        ((hx.runs s.portEvents).symm.trans ht) hb
    exact ⟨new, es, draws, count, c, rfl⟩

/-- Settles O44: a show begun or resumed leaves the store, and an ended one is an idle state's update. -/
theorem showsWriteNoState : Obligations.ShowsWriteNoState := by
  unfold Obligations.ShowsWriteNoState
  rw [← execWith_hw]
  refine ⟨fun i s t hshow ht => ?_, fun s t ht => ?_, fun i s t hshow hs ht hb => ?_⟩
  · obtain ⟨port, rfl⟩ := (isShow_iff_showInstr i).1 hshow
    exact execWith_show_inst ht
  · obtain ⟨hkeeps, -, -⟩ := runShow_next Config.hw _ s t ht
    exact ⟨hkeeps.inst, hkeeps.commands, hkeeps.fault⟩
  · obtain ⟨port, rfl⟩ := (isShow_iff_showInstr i).1 hshow
    obtain ⟨new, es, draws, count, c, rfl⟩ := execWith_show_ended hs ht hb
    exact ⟨new, statusOf c, c, es, draws, count, State.endCommand_of_run_eq_none (by exact hs.2) c⟩

end Sys2Proof.Machine
end

section
/-! SUPPORT. Errors and FAULT (60_exceptions.md): the entry guard of every command, what a command from an idle block leaves of
FAULT and the inputs, the error exit, and how a show waits for an answer and fails. -/

namespace Sys2Proof.Machine

open Sys2Proof.Config (Params)

/-! ### Commands while INST_VALID = 0 (R203, R231) -/

/-- While INST_VALID = 0 every command but INIT is NO_INSTANCE, for any parameter values. -/
theorem execWith_noInstance (P : Params) {i : Instr} {s : State} (hs : s.Idle) (hi : s.inst = none)
    (hinit : isInit i = false) :
    execWith P i s = .next { s with status := some .err, cause := some .noInstance } := by
  cases i
  case init => cases hinit
  all_goals exact accept_withInstance_none _ hs hi

/-- Settles O16: `execWith_noInstance` at this hardware's values. -/
theorem commandsWithoutInstanceFail : Obligations.CommandsWithoutInstanceFail := by
  intro i s hs hi hne
  have hinit : isInit i = false := by
    cases i
    case init n sp ap => exact absurd rfl (hne n sp ap)
    all_goals rfl
  rw [← execWith_hw]
  exact execWith_noInstance Config.hw hs hi hinit

/-! ### FAULT (R210, R211) -/

/-- Once FAULT is set the machine has no step. -/
theorem stepWith_dead (P : Params) {s : State} (hf : s.fault = .concurrentAccess) :
    stepWith P s = .fault .concurrentAccess := by
  have hfetch : fetchWith P s = .dead := by simp only [fetchWith, hf]
  exact stepWith_of_fetch hfetch

/-- Settles O48: the entry guard of a legal and of an illegal command, and the dead machine. -/
theorem commandDuringAShowIsAFault : Obligations.CommandDuringAShowIsAFault := by
  unfold Obligations.CommandDuringAShowIsAFault
  rw [← execWith_hw, ← stepWith_hw]
  refine ⟨fun i s hf hb => ?_, fun s hf hb => accept_busy s _ hf hb, fun i s hf => ⟨stepWith_dead Config.hw hf, ?_⟩⟩
  · obtain ⟨body, hbody⟩ := execWith_eq_accept Config.hw i
    exact (hbody s).trans (accept_busy s _ hf hb)
  · obtain ⟨body, hbody⟩ := execWith_eq_accept Config.hw i
    exact (hbody s).trans (accept_dead s _ hf)

/-- What a command from an idle block keeps of FAULT and the inputs: a show only takes events from the front. -/
structure InputsKept (s t : State) : Prop where
  fault : t.fault = s.fault
  commands : t.commands = s.commands
  events : t.portEvents <:+ s.portEvents

theorem execWith_show_inputs {P : Params} {port : Port} {s t : State} (hs : s.Idle)
    (ht : execWith P (showInstr port) s = .next t) : InputsKept s t := by
  obtain ⟨u, hu, hend⟩ := execWith_show_idle_cases P port hs
  obtain ⟨draws, count, rfl⟩ := hu.eq_update
  rcases hend with ⟨c, e⟩ | ⟨x, hx⟩
  · rw [e] at ht
    cases ht
    exact ⟨rfl, rfl, List.suffix_refl _⟩
  · obtain ⟨hkeeps, hevents, -⟩ := runShow_next P _ _ t ((hx.runs s.portEvents).symm.trans ht)
    exact ⟨hkeeps.fault, hkeeps.commands, hevents⟩

theorem execWith_inputs {P : Params} {i : Instr} {s t : State} (hs : s.Idle) (ht : execWith P i s = .next t) :
    InputsKept s t := by
  cases hshow : isShow i with
  | false =>
    obtain ⟨_, _, _, _, hexec, -⟩ := execWith_mutator_cases P i s hshow hs.1 hs.2
    rw [hexec] at ht
    cases ht
    exact ⟨rfl, rfl, List.suffix_refl _⟩
  | true =>
    obtain ⟨port, rfl⟩ := (isShow_iff_showInstr i).1 hshow
    exact execWith_show_inputs hs ht

/-- A host that serialised its commands has still done so once events were taken. -/
theorem State.Serialised.of_suffix {s t : State} (h : s.Serialised) (hsuf : t.portEvents <:+ s.portEvents) : t.Serialised :=
  fun e he => h e (hsuf.subset he)

/-- A serialising host's commands are taken from the command stream, by an idle block. -/
theorem Taken.of_serialised {s u : State} (hu : Taken s u) (h : s.Serialised) :
    s.run = none ∧ ∃ rest, u = { s with commands := rest } := by
  rcases hu with hidle | ⟨-, bytes, es, hes, -⟩
  · exact hidle
  · have hcommand : PortEvent.command bytes ∈ s.portEvents := by simp [hes]
    rcases h _ hcommand with habs | habs <;> cases habs

/-- A step of a serialising host keeps FAULT clear and the host serialised, for any parameter values. -/
theorem stepWith_serialised {P : Params} {s t : State} (h : s.Serialised) (ht : stepWith P s = .next t) :
    t.Serialised ∧ t.fault = .none := by
  obtain ⟨hf, rfl | ⟨-, hshow⟩ | ⟨u, hexec, hu⟩⟩ := stepWith_next_cases P s t ht
  · exact ⟨h, hf⟩
  · obtain ⟨hkeeps, hevents, -⟩ := runShow_next P _ s t hshow
    exact ⟨h.of_suffix hevents, hkeeps.fault.trans hf⟩
  · obtain ⟨hr, rest, rfl⟩ := hu.of_serialised h
    rcases hexec with ⟨i, hexec, -⟩ | hill
    · have hkept := execWith_inputs (s := { s with commands := rest }) ⟨hf, hr⟩ hexec
      exact ⟨h.of_suffix hkept.events, hkept.fault.trans hf⟩
    · rw [execIllegal_idle (s := { s with commands := rest }) ⟨hf, hr⟩] at hill
      cases hill
      exact ⟨h, hf⟩

/-- Settles O49: `stepWith_serialised` at this hardware's values. -/
theorem serialisedHostNeverFaults : Obligations.SerialisedHostNeverFaults := by
  intro s t h _ ht
  rw [← stepWith_hw] at ht
  exact stepWith_serialised h ht

/-! ### The error exit (R205) -/

/-- A command that ends with ERR leaves CONFIG and PSTORE. -/
theorem execWith_inst_of_err {P : Params} {i : Instr} {s t : State} (hs : s.Idle) (ht : execWith P i s = .next t)
    (herr : t.status = some .err) : t.inst = s.inst := by
  cases hshow : isShow i with
  | false =>
    obtain ⟨inst, _, _, c, hexec, -, kept, -⟩ := execWith_mutator_cases P i s hshow hs.1 hs.2
    rw [hexec] at ht
    cases ht
    cases c with
    | none => cases herr
    | some c => exact kept nofun
  | true =>
    obtain ⟨port, rfl⟩ := (isShow_iff_showInstr i).1 hshow
    exact execWith_show_inst ht

/-- Settles O46: what a command keeps, and the views of the idle block it leaves. -/
theorem errorExitIsPrecise : Obligations.ErrorExitIsPrecise := by
  intro i s t hs ht hb herr
  rw [← execWith_hw] at ht
  have hkept := execWith_inputs hs ht
  obtain ⟨-, phase, scratch, abuf⟩ := State.views_idle ((State.busy_eq_false t).1 hb)
  obtain ⟨new, htrace⟩ := (execWith_keeps ht).trace
  exact ⟨execWith_inst_of_err hs ht herr, hkept.fault, hkept.commands, phase, scratch, abuf, new, htrace.symm⟩

/-! ### The wait for an answer (R212) -/

theorem callList_getElem? (P : Params) (x : Instance) (port : Port) {k : Nat} (hk : k < (callList P x port).length) :
    (callList P x port)[k]? = some (callAt P x port k) := by
  rw [callAt, List.getD_eq_getElem?_getD, List.getElem?_eq_getElem hk, Option.getD_some]

/-- A show whose outstanding call has no answer takes the waiting step. -/
theorem stepWith_unanswered (P : Params) {s : State} (hf : s.fault = .none) (hb : s.busy = true)
    (hes : s.portEvents = []) : stepWith P s = .next s := by
  obtain ⟨run, hr⟩ := (State.busy_eq_true s).1 hb
  have hfetch : fetchWith P s = .wait := by simp only [fetchWith, hf, hr, hes]
  exact stepWith_of_fetch hfetch

/-- A machine whose step leaves the state as it is stays there for any number of steps. -/
theorem run_of_step_eq_self (M : Host.Core) {s : M.State} (h : M.step s = .next s) (m : Nat) : M.run m s = .next s := by
  induction m with
  | zero => rfl
  | succ m ih => simp only [Host.Core.run, h, ih]

/-- Settles O38: the wait of each show at call `k`, and the step that changes nothing. -/
theorem unansweredShowWaitsForEver : Obligations.UnansweredShowWaitsForEver := by
  refine ⟨fun s x k hs hi hp hk hes => ?_, fun s x k hs hi hp hn ha hk hes => ?_, fun t m hf hb hes => ?_⟩
  · have hcall : k < (callList Config.hw x .sync).length := by rw [callList, syncCalls_length]; exact hk
    exact ⟨_, _, callList_getElem? Config.hw x .sync hcall, execShowSyncWith_waits Config.hw hs hi hp hcall hes,
      rfl, rfl, hs.1, rfl, rfl, rfl⟩
  · have hcall : k < (callList Config.hw x .async).length := by rw [callList, asyncCalls_length]; exact hk
    refine ⟨_, _, callList_getElem? Config.hw x .async hcall, execShowAsyncWith_waits Config.hw hs hi hp hn ha hcall hes,
      rfl, State.alloc_inst .., (State.alloc_fault ..).trans hs.1, State.alloc_status .., rfl, ?_⟩
    simp only [waitState, State.alloc_trace, callList]
  · have hstep : step t = .next t := by
      rw [← stepWith_hw]
      exact stepWith_unanswered Config.hw hf hb hes
    exact run_of_step_eq_self _ hstep m

/-! ### No retry (R202) -/

/-- After calls that were answered OK only the last entry can have failed. -/
theorem eq_of_fail_mem_entries_concat {port : Port} {calls : List (List Byte)} {e last : Entry}
    (he : e ∈ entries port .ok calls ++ [last]) (hfail : e.answer = .fail) : e = last := by
  rcases List.mem_append.1 he with hmem | hmem
  · simp [(mem_entries hmem).2] at hfail
  · exact List.mem_singleton.1 hmem

/-- A show begun at `u` that has a failed call ended with it. -/
theorem runShow_waitState_failed_call {P : Params} {x : Instance} {port : Port} {u t : State} {es : List PortEvent}
    {k : Nat} {new : List Entry} {e : Entry} (hi : u.inst = some x) (hk : k < (callList P x port).length)
    (ht : runShow P es (waitState P x port u k) = .next t) (hnew : t.trace = u.trace ++ new) (he : e ∈ new)
    (hfail : e.answer = .fail) :
    t.busy = false ∧ t.status = some .err ∧ t.cause = some .transportFail ∧ new.getLast? = some e := by
  rcases runShow_cases P x port u hi es k hk with ⟨k', _, -, h⟩ | ⟨k', _, -, h⟩ | ⟨_, h⟩ <;> rw [h] at ht <;> cases ht
  · obtain rfl := List.append_cancel_left ((List.append_assoc ..).symm.trans hnew)
    obtain rfl := eq_of_fail_mem_entries_concat he hfail
    cases hfail
  · obtain rfl := List.append_cancel_left ((List.append_assoc ..).symm.trans hnew)
    obtain rfl := eq_of_fail_mem_entries_concat he hfail
    exact ⟨rfl, rfl, rfl, List.getLast?_concat ..⟩
  · obtain rfl := List.append_cancel_left hnew
    simp [(mem_entries he).2] at hfail

/-- Either show from an idle state, for any parameter values. -/
theorem execWith_show_failed_call {P : Params} {port : Port} {s t : State} {new : List Entry} {e : Entry} (hs : s.Idle)
    (ht : execWith P (showInstr port) s = .next t) (hnew : t.trace = s.trace ++ new) (he : e ∈ new)
    (hfail : e.answer = .fail) :
    t.busy = false ∧ t.status = some .err ∧ t.cause = some .transportFail ∧ new.getLast? = some e := by
  obtain ⟨u, hu, ⟨c, h⟩ | ⟨x, hx⟩⟩ := execWith_show_idle_cases P port hs
  · rw [h] at ht
    cases ht
    rw [State.endCommand_trace, hu.trace, List.self_eq_append_right] at hnew
    rw [hnew] at he
    cases he
  · rw [← hu.trace] at hnew
    exact runShow_waitState_failed_call (hu.inst.trans hx.inst) hx.call ((hx.runs s.portEvents).symm.trans ht) hnew he hfail

/-- A FAIL at the wait of a show is its end. -/
theorem resumeShowWith_fail (P : Params) {s : State} {es : List PortEvent} (hes : s.portEvents = .fail :: es) :
    resumeShowWith P s = .next { s with
      run := none, trace := answerLast .fail s.trace, portEvents := es,
      status := some .err, cause := some .transportFail } := by
  rw [resumeShowWith, hes]
  rfl

/-- Settles O45: a failed call of a show begun or resumed, and the allocator's refusal of INIT and of SHOW_ASYNC. -/
theorem failureEndsTheCommandAtOnce : Obligations.FailureEndsTheCommandAtOnce := by
  refine ⟨fun i s t new e hshow hs ht hnew he hfail => ?_, fun s es hes => resumeShowWith_fail Config.hw hes,
    fun s n sp ap hs hi hp hn ha => ?_, fun s x hs hi hp hn ha => ?_⟩
  · obtain ⟨port, rfl⟩ := (isShow_iff_showInstr i).1 hshow
    rw [← execWith_hw] at ht
    exact execWith_show_failed_call hs ht hnew he hfail
  · exact execInitWith_allocFail Config.hw hs ((State.instValid_eq_false s).2 hi) hp hn ha
  · exact execShowAsyncWith_allocFail Config.hw hs hi hp (Nat.ne_of_gt hn) ha

end Sys2Proof.Machine
end

section
/-! SUPPORT. The check order (R203): which causes are left once the checks up to a place have passed, and, command by command, that an
idle block either stops at the first check that fails or passes them all, after which only a call can fail. -/

namespace Sys2Proof.Machine

open Sys2Proof.Config (Params)

/-! ### The places of the check order -/

/-- Every cause that applies has at least this place: the checks before it pass. -/
def PassesBefore (place : Nat) (i : Instr) (s : State) : Prop := ∀ d, causeApplies d i s = true → place ≤ d.rank

/-- The cause R203 reports: it applies, and the checks before its place pass. -/
def FirstCause (c : Cause) (i : Instr) (s : State) : Prop := causeApplies c i s = true ∧ PassesBefore c.rank i s

/-- A command that decoded passes place 1. -/
theorem passesBefore_two (i : Instr) (s : State) : PassesBefore 2 i s := by
  intro d hd
  cases d
  case illegalCommand => cases hd
  all_goals decide

/-- INIT with INST_VALID = 0, and every other command with INST_VALID = 1, passes place 2. -/
theorem passesBefore_three {i : Instr} {s : State} (h : isInit i = !s.instValid) : PassesBefore 3 i s := by
  intro d hd
  cases d
  case illegalCommand => cases hd
  case noInstance => simp [causeApplies, h] at hd
  case alreadyInit => simp [causeApplies, h] at hd
  all_goals decide

/-- Past the check of a cause that does not apply, to the place where every other cause left is. -/
theorem PassesBefore.past {c : Cause} {place : Nat} {i : Instr} {s : State} (h : PassesBefore c.rank i s)
    (hc : causeApplies c i s = false) (hplace : ∀ d, d ≠ c → c.rank ≤ d.rank → place ≤ d.rank) :
    PassesBefore place i s := by
  intro d hd
  have hne : d ≠ c := by
    rintro rfl
    rw [hc] at hd
    cases hd
  exact hplace d hne (h d hd)

theorem PassesBefore.past_noPort {i : Instr} {s : State} (h : PassesBefore 3 i s)
    (hc : noPortApplies i s.inst = false) : PassesBefore 4 i s :=
  h.past (c := .noPort) hc fun d => by cases d <;> decide

theorem PassesBefore.past_indexRange {i : Instr} {s : State} (h : PassesBefore 4 i s)
    (hc : indexRangeApplies i s.inst = false) : PassesBefore 6 i s :=
  h.past (c := .indexRange) hc fun d => by cases d <;> decide

theorem PassesBefore.past_allocFail {i : Instr} {s : State} (h : PassesBefore 6 i s)
    (hc : allocFailApplies i s = false) : PassesBefore 7 i s :=
  h.past (c := .allocFail) hc fun d => by cases d <;> decide

/-- Past the checks of places 3 to 6 only a failed call is left. -/
theorem PassesBefore.past_checks {i : Instr} {s : State} (h : PassesBefore 3 i s) (hport : noPortApplies i s.inst = false)
    (hindex : indexRangeApplies i s.inst = false) (halloc : allocFailApplies i s = false) : PassesBefore 7 i s :=
  ((h.past_noPort hport).past_indexRange hindex).past_allocFail halloc

/-! ### How a command meets the checks -/

/-- The error exit before any call: STATUS and the label, and TRACE as it was (R205). -/
structure StopsWith (c : Cause) (s t : State) : Prop where
  busy : t.busy = false
  status : t.status = some .err
  cause : t.cause = some c
  trace : t.trace = s.trace

theorem stopsWith_update (c : Cause) {s : State} (hr : s.run = none) :
    StopsWith c s { s with status := some .err, cause := some c } where
  busy := (State.busy_eq_false _).2 hr
  status := rfl
  cause := rfl
  trace := rfl

theorem stopsWith_alloc (c : Cause) {s : State} (hr : s.run = none) (n : Nat) :
    StopsWith c s { (s.alloc n).2 with status := some .err, cause := some c } where
  busy := (State.busy_eq_false _).2 ((State.alloc_run s n).trans hr)
  status := rfl
  cause := rfl
  trace := State.alloc_trace s n

/-- A command meets the checks of R203: it stops at the first that fails, or passes them all, and then an error of the ended
command is a show's failed call. -/
def MeetsChecks (i : Instr) (s t : State) : Prop :=
  (∃ c, FirstCause c i s ∧ StopsWith c s t) ∨
  (PassesBefore 7 i s ∧ ∀ c, t.busy = false → t.cause = some c → c = .transportFail ∧ isShow i = true)

theorem MeetsChecks.of_ok {i : Instr} {s t : State} (h : PassesBefore 7 i s) (ht : t.cause = none) : MeetsChecks i s t :=
  .inr ⟨h, fun _ _ hc => by rw [ht] at hc; cases hc⟩

/-- INIT (R110, R111). -/
theorem execInit_meetsChecks {n : Nat} {sp ap : Bool} {s t : State} (hs : s.Idle)
    (ht : execInitWith Config.hw n sp ap s = .next t) : MeetsChecks (.init n sp ap) s t := by
  cases hv : s.instValid with
  | true =>
    cases (execInitWith_alreadyInit Config.hw n sp ap hs hv).symm.trans ht
    exact .inl ⟨.alreadyInit, ⟨hv, passesBefore_two _ _⟩, stopsWith_update _ hs.2⟩
  | false =>
    have h3 : PassesBefore 3 (.init n sp ap) s := passesBefore_three (by rw [hv]; rfl)
    cases hp : noPortApplies (.init n sp ap) s.inst with
    | true =>
      obtain ⟨rfl, rfl⟩ : sp = false ∧ ap = false := by simpa [noPortApplies] using hp
      cases (execInitWith_noPort Config.hw n hs hv).symm.trans ht
      exact .inl ⟨.noPort, ⟨rfl, h3⟩, stopsWith_update _ hs.2⟩
    | false =>
      have h6 : PassesBefore 6 (.init n sp ap) s := (h3.past_noPort hp).past_indexRange rfl
      have hport : sp = true ∨ ap = true := by cases sp <;> simp_all [noPortApplies]
      have hinst : s.inst = none := (State.instValid_eq_false s).1 hv
      by_cases hn : n = 0
      · subst hn
        cases (execInitWith_no_pixels Config.hw hs hinst hport).symm.trans ht
        exact .of_ok (h6.past_allocFail rfl) rfl
      · have hallocFail : allocFailApplies (.init n sp ap) s = !(s.alloc (3 * n)).1 := by simp [allocFailApplies, hn]
        cases ha : (s.alloc (3 * n)).1 with
        | false =>
          cases (execInitWith_allocFail Config.hw hs hv hport hn ha).symm.trans ht
          exact .inl ⟨.allocFail, ⟨by rw [causeApplies, hallocFail, ha]; rfl, h6⟩, stopsWith_alloc _ hs.2 _⟩
        | true =>
          cases (execInitWith_success Config.hw hs hinst hport hn ha).symm.trans ht
          exact .of_ok (h6.past_allocFail (by rw [hallocFail, ha]; rfl)) rfl

/-- SET_PIXEL (R112). -/
theorem execSetPixel_meetsChecks {index : Nat} {r g b : Byte} {s t : State} {x : Instance} (hs : s.Idle)
    (hi : s.inst = some x) (ht : execSetPixelWith Config.hw index r g b s = .next t) :
    MeetsChecks (.setPixel index r g b) s t := by
  have h4 : PassesBefore 4 (.setPixel index r g b) s := (passesBefore_three (by simp [isInit, hi])).past_noPort rfl
  by_cases h : index < x.n
  · have hin : indexRangeApplies (.setPixel index r g b) s.inst = false := by
      simpa [indexRangeApplies, hi, Instance.hasPixel] using h
    cases (execSetPixelWith_success Config.hw r g b hs hi h).symm.trans ht
    exact .of_ok ((h4.past_indexRange hin).past_allocFail rfl) rfl
  · have hout : indexRangeApplies (.setPixel index r g b) s.inst = true := by
      simpa [indexRangeApplies, hi, Instance.hasPixel] using h
    cases (execSetPixelWith_indexRange Config.hw r g b hs hi (Nat.le_of_not_lt h)).symm.trans ht
    exact .inl ⟨.indexRange, ⟨hout, h4⟩, stopsWith_update _ hs.2⟩

/-- A show that has begun can end with no cause but its failed call (R173, R178). -/
theorem runShow_waitState_cause {P : Params} {x : Instance} {port : Port} {u t : State} {es : List PortEvent} {k : Nat}
    {c : Cause} (hi : u.inst = some x) (hk : k < (callList P x port).length)
    (ht : runShow P es (waitState P x port u k) = .next t) (hb : t.busy = false) (hc : t.cause = some c) :
    c = .transportFail := by
  rcases runShow_cases P x port u hi es k hk with ⟨_, _, -, e⟩ | ⟨_, _, -, e⟩ | ⟨_, e⟩ <;> rw [e] at ht <;> cases ht
  · cases hb
  · exact (Option.some.inj hc).symm
  · cases hc

/-- SHOW_SYNC (R170, R173). -/
theorem execShowSync_meetsChecks {s t : State} {x : Instance} (hs : s.Idle) (hi : s.inst = some x)
    (ht : execShowSyncWith Config.hw s = .next t) : MeetsChecks .showSync s t := by
  have h3 : PassesBefore 3 .showSync s := passesBefore_three (by simp [isInit, hi])
  cases hp : x.syncEn with
  | false =>
    cases (execShowSyncWith_noPort Config.hw hs hi hp).symm.trans ht
    exact .inl ⟨.noPort, ⟨by simp [causeApplies, noPortApplies, hi, hp], h3⟩, stopsWith_update _ hs.2⟩
  | true =>
    have h7 : PassesBefore 7 .showSync s :=
      h3.past_checks (by simp [noPortApplies, hi, hp]) rfl rfl
    have hcalls : 0 < (callList Config.hw x .sync).length := callList_pos Config.hw (by decide) x .sync
    rw [execShowSyncWith_idle Config.hw s x hs.1 hs.2 hi hp hcalls] at ht
    exact .inr ⟨h7, fun c hb hc => ⟨runShow_waitState_cause hi hcalls ht hb hc, rfl⟩⟩

/-- SHOW_ASYNC (R175, R177, R178). -/
theorem execShowAsync_meetsChecks {s t : State} {x : Instance} (hs : s.Idle) (hi : s.inst = some x)
    (ht : execShowAsyncWith Config.hw s = .next t) : MeetsChecks .showAsync s t := by
  have h3 : PassesBefore 3 .showAsync s := passesBefore_three (by simp [isInit, hi])
  cases hp : x.asyncEn with
  | false =>
    cases (execShowAsyncWith_noPort Config.hw hs hi hp).symm.trans ht
    exact .inl ⟨.noPort, ⟨by simp [causeApplies, noPortApplies, hi, hp], h3⟩, stopsWith_update _ hs.2⟩
  | true =>
    have h6 : PassesBefore 6 .showAsync s := (h3.past_noPort (by simp [noPortApplies, hi, hp])).past_indexRange rfl
    by_cases hn : x.n = 0
    · cases (execShowAsyncWith_no_pixels Config.hw hs hi hp hn).symm.trans ht
      exact .of_ok (h6.past_allocFail (by simp [allocFailApplies, hi, hn])) rfl
    · have hallocFail : allocFailApplies .showAsync s = !(s.alloc (x.frameBytes Config.hw)).1 := by
        simp [allocFailApplies, hi, hn, Instance.frameBytes, pixelSymbols, Config.hw]
      cases ha : (s.alloc (x.frameBytes Config.hw)).1 with
      | false =>
        cases (execShowAsyncWith_allocFail Config.hw hs hi hp hn ha).symm.trans ht
        exact .inl ⟨.allocFail, ⟨by rw [causeApplies, hallocFail, ha]; rfl, h6⟩, stopsWith_alloc _ hs.2 _⟩
      | true =>
        have h7 : PassesBefore 7 .showAsync s := h6.past_allocFail (by rw [hallocFail, ha]; rfl)
        rw [execShowAsyncWith_idle Config.hw s x hs.1 hs.2 hi hp hn ha] at ht
        exact .inr ⟨h7, fun c hb hc =>
          ⟨runShow_waitState_cause ((State.alloc_inst ..).trans hi) (Nat.succ_pos _) ht hb hc, rfl⟩⟩

/-- Every command but INIT, with INST_VALID = 1. -/
theorem exec_instance_meetsChecks {i : Instr} {s t : State} {x : Instance} (hs : s.Idle) (hi : s.inst = some x)
    (hinit : isInit i = false) (ht : execWith Config.hw i s = .next t) : MeetsChecks i s t := by
  have h3 : PassesBefore 3 i s := passesBefore_three (by simp [hinit, hi])
  cases i with
  | init n sp ap => cases hinit
  | setPixel index r g b => exact execSetPixel_meetsChecks hs hi ht
  | setMulti indices r g b =>
    cases (execSetMultiWith_success Config.hw indices r g b hs hi).symm.trans ht
    exact .of_ok (h3.past_checks rfl rfl rfl) rfl
  | clear =>
    cases (execClearWith_success Config.hw hs hi).symm.trans ht
    exact .of_ok (h3.past_checks rfl rfl rfl) rfl
  | showSync => exact execShowSync_meetsChecks hs hi ht
  | showAsync => exact execShowAsync_meetsChecks hs hi ht
  | deinit =>
    cases (execDeinit_success hs hi).symm.trans ht
    exact .of_ok (h3.past_checks rfl rfl rfl) rfl

/-- Every command from an idle block meets the checks in order. -/
theorem exec_meetsChecks {i : Instr} {s t : State} (hs : s.Idle) (ht : execWith Config.hw i s = .next t) :
    MeetsChecks i s t := by
  cases hinit : isInit i with
  | true =>
    cases i
    case init n sp ap => exact execInit_meetsChecks hs ht
    all_goals cases hinit
  | false =>
    cases hi : s.inst with
    | none =>
      cases (execWith_noInstance Config.hw hs hi hinit).symm.trans ht
      exact .inl ⟨.noInstance, ⟨by simp [causeApplies, hinit, hi], passesBefore_two _ _⟩, stopsWith_update _ hs.2⟩
    | some x => exact exec_instance_meetsChecks hs hi hinit ht

/-- Settles O47: a command that stops at a check reports its cause, and one that passes them all has only a failed call left
to report. -/
theorem firstApplicableCauseIsReported : Obligations.FirstApplicableCauseIsReported := by
  intro i s t hs ht
  rw [← execWith_hw] at ht
  rcases exec_meetsChecks hs ht with ⟨c, hfirst, hstops⟩ | ⟨hpasses, hcall⟩
  · refine ⟨fun c' _ hc' => ?_, fun d _ _ => ⟨hstops.busy, hstops.status, by simp [hstops.cause], hstops.trace⟩⟩
    obtain rfl : c = c' := Option.some.inj (hstops.cause.symm.trans hc')
    exact hfirst
  · refine ⟨fun c hb hc => ?_, fun d hd hplace => ?_⟩
    · obtain ⟨rfl, hshow⟩ := hcall c hb hc
      exact ⟨hshow, hpasses⟩
    · have hlate := hpasses d hd
      omega

end Sys2Proof.Machine
end

section
/-! SUPPORT. The written-out words of 95_test_vectors.md 2.6: each legal one is the encoding of the command it lists. -/

namespace Sys2Proof

/-- The round trip for a byte string that holds one command and nothing after it. -/
theorem decode_of_encode_eq {i : Instr} {bs : List Byte} (hwf : i.wellFormed = true) (henc : encode i = bs) :
    decode bs = .command i [] := by
  rw [← henc, ← List.append_nil (encode i)]
  exact decodeOfEncodeIsTheCommand i [] hwf

/-- Settles O3: the words X1 and X6 to X10 are the encodings of their commands, so the round trip reads them back. -/
theorem writtenOutWordsDecode : Obligations.WrittenOutWordsDecode := by
  refine ⟨?showSync, ?init2, ?init300, ?setPixel258, ?setMultiEmpty, ?setMultiThree⟩
  all_goals exact decode_of_encode_eq (by decide) (by decide)

end Sys2Proof
end
